-- ==== Sys2Proof/Word.lean ====
section
/-! DEFINITION. The words of the block: bytes, 16-bit fields, the 64-bit command word (R9, R64, R96), and the
inputs that reach it. -/

namespace Sys2Proof

/-- An unsigned 8-bit value, bit 0 the least significant (00_scope.md R9). -/
abbrev Byte := BitVec 8

/-- An unsigned 16-bit value: a two-byte payload field, a composer part, a year (R64, R98, R176). -/
abbrev Half := BitVec 16

/-- The command word `CMD` (30_encoding.md R96). -/
abbrev CmdWord := BitVec 64

/-- What can be asked of the block: a command word (R96), or a whole wire unit of one of the three wire formats
(R90), told apart by its direction. Log entry 3. -/
inductive Request where
  /-- One command word on the command port (R96). -/
  | cmd (w : CmdWord)
  /-- Device to host: all buffered bytes of a response, wire offset 0 first (R91). -/
  | rx (buf : List Byte)
  /-- Host to device: an outbound command, named by its bytes, wire offset 0 first (R93, R94). -/
  | tx (bytes : List Byte)
  deriving DecidableEq, Repr

/-- One thing that can happen to the block from outside: the reset event (R290) or a request. -/
inductive Input where
  | reset
  | request (r : Request)
  deriving DecidableEq, Repr

end Sys2Proof
end

