-- ==== Sys2Proof/Config.lean ====
section
/-! DEFINITION. What one block fixes and the sources do not print (00_scope.md R8, 10_state.md R41): the OPEN
parameters, and the free values of registers that reset leaves unspecified (R44). None has a body: nothing can be
proved of a value beyond the constraints that the types carry. -/

namespace Sys2Proof

/-- Where a composer part or a configuration field lies: `(a, w)` with `w` 1 or 2 and `a + w - 1 ≤ 55`
(43_telemetry_decoder.md R187). -/
inductive PartAt where
  | one (a : Fin 56)
  | two (a : Fin 55)
  deriving DecidableEq, Repr, Inhabited

/-- The scale of a stored-configuration field, 1 or 10 (R187, R200). -/
inductive Scale where
  | unit
  | tenth
  deriving DecidableEq, Repr, Inhabited

/-- A stored-configuration entry `CFG[x]` of the layout: its part and its scale (R187). -/
structure CfgAt where
  part  : PartAt
  scale : Scale
  deriving DecidableEq, Repr, Inhabited

/-- `LAYOUT`, OPEN (R187): a byte offset is at most 55, a two-byte offset `a` has `a + 1 ≤ 55`; the entries need not
be disjoint (C9). `N_TEMP_OTHER ≥ 1` is the length of `temp0 :: tempMore`. -/
structure Layout where
  st1 : Fin 56
  st2 : Fin 56
  wr1 : Fin 56
  wr2 : Fin 56
  ft1 : Fin 56
  ft2 : Fin 56
  pv : Fin 55
  bv : Fin 55
  ccI : PartAt
  ccF : PartAt
  bcap : Fin 56
  bcells : Fin 56
  btype : Fin 56
  btemp : Fin 56
  temp0 : Fin 56
  tempMore : List (Fin 56)
  edayI : PartAt
  edayF : PartAt
  etotI : PartAt
  etotF : PartAt
  runI : PartAt
  runF : PartAt
  year : Fin 55
  mon : Fin 56
  day : Fin 56
  hour : Fin 56
  min : Fin 56
  sec : Fin 56
  wday : Fin 56
  cfgBtype : CfgAt
  cfgSysv : CfgAt
  cfgChgpct : CfgAt
  cfgLowv : CfgAt
  cfgStrongv : CfgAt
  cfgFloatv : CfgAt
  cfgDcout : CfgAt
  cfgOnoff : CfgAt
  cfgRecovv : CfgAt
  vmaj : Fin 56
  vmin : Fin 56
  mtype : Fin 56
  deriving DecidableEq, Repr, Inhabited

/-- The OPEN parameters of R8 (D3, U13). -/
structure Params where
  layout : Layout
  /-- The choice of `MASK_WR2`; `Machine/Rom.lean` makes of it a mask with exactly five bits set (R154, log 8). -/
  wr2 : Byte
  /-- The bit position of the one flag of fault2, whose mask is `MASK_FT2` (R156). -/
  ft2Bit : Fin 8
  /-- `SETCLOCK_PREAMBLE`, exactly 11 bytes (R94). -/
  preamble : Vector Byte 11
  /-- `MAX_RETRIES`, any natural (R8, R237). -/
  maxRetries : Nat
  /-- `POLL_INTERVAL`, the owner's pacing of checks (R8, R274): no operation reads it. -/
  pollInterval : Nat
  /-- `NAME_WR1`, `NAME_WR2`, `NAME_FT1`: the device's flag names (R153 to R155). -/
  nameWr1 : Vector String 8
  nameWr2 : Vector String 5
  nameFt1 : Vector String 8
  /-- `ROUND3_TIE` (R197): whether the exact tie between `q` and `q + 1` at voltage `v` and current parts `i`, `f`
  goes up. A draw: nothing constrains it (log 9). -/
  tieUp : (v i f q : Nat) → Bool
  deriving Inhabited

/-- The binding of the OPEN parameters of this block (70_reset_and_hazards.md R293). No body: every admissible
binding is meant. -/
opaque Config.params : Params

/-- The value of a register that reset leaves unspecified (R44), by the number `k` of the reset, the register's name
in 10_state.md, its index and its width. A free value (log 5). -/
opaque Config.unspecified (k : Nat) (name : String) (index width : Nat) : BitVec width

end Sys2Proof
end

