-- ==== Sys2Proof/Machine/Bytes.lean ====
section
/-! DEFINITION. The byte helpers of the spec's notation (00_scope.md R9, R10): the additive checksum, the two byte
orders, counting bits, and a number's bytes. -/

namespace Sys2Proof.Machine

/-- `sum8(p)`: the sum of the bytes mod 256 (R10, R125). -/
def sum8 : List Byte → Byte
  | [] => 0
  | b :: p => b + sum8 p

/-- `u16le(lo, hi) = lo + 256 × hi` (R10, R64). -/
def u16le (lo hi : Byte) : Half := hi ++ lo

/-- `v div 256` of a 16-bit value (R95). -/
def highByte (v : Half) : Byte := v.extractLsb' 8 8

/-- `v mod 256` of a 16-bit value (R95). -/
def lowByte (v : Half) : Byte := v.extractLsb' 0 8

/-- The number of bits set in a byte (R8, the constraints on the masks). -/
def popcount (b : Byte) : Nat := ((List.range 8).filter fun i => b.getLsbD i).length

/-- The `n` low bytes of a number, the most significant first: how spec/opcode_table.json numbers the bits of the
wire formats ("wire offset 0 being the most significant byte"). -/
def bytesOfNat : (n w : Nat) → List Byte
  | 0, _ => []
  | n + 1, w => BitVec.ofNat 8 (w / 256 ^ n) :: bytesOfNat n w

end Sys2Proof.Machine
end

