-- ==== Sys2Proof/Machine/Rom.lean ====
section
/-! DEFINITION. The constants `ROM` (10_state.md R41): the FIXED parameters of 00_scope.md R8, the six bit tables and
their masks (41_bitfield_decoder.md R151 to R156). -/

namespace Sys2Proof.Machine

/-- `MAGIC`, "MVMP" (R8, R14; the letters' codes are K1's, log 16). -/
def magic : List Byte := [0x4D, 0x56, 0x4D, 0x50]

/-- `POLL_LITERAL` (R8, R93). -/
def pollLiteral : List Byte := [0x43, 0x4D, 0x48, 0x42, 0x06, 0x4D, 0x50, 0x50, 0x54, 0x48, 0x42]

/-- `MIN_PAYLOAD` (R8, R185). -/
def minPayload : Nat := 56

/-- `PAY_SIZE` (R8, R27). -/
def paySize : Nat := 254

/-- `TXB_SIZE` (R8, R39). -/
def txbSize : Nat := 18

/-- `W_RETRY`, the width of the retry counter: the bits needed for `MAX_RETRIES + 1` (R8, 92_eei_decisions.md D25). -/
def wRetry (P : Params) : Nat := Nat.log2 (P.maxRetries + 1) + 1

/-- The longest wait of a poll cycle, `interval × maxRetries`, in the owner's units of pacing; no operation reads it
(70_reset_and_hazards.md R305, 60_exceptions.md R274). -/
def maxWait (P : Params) : Nat := P.pollInterval * P.maxRetries

/-- `N_TEMP_OTHER`, at least 1 (R8). -/
def nTempOther (P : Params) : Nat := P.layout.tempMore.length + 1

/-- `MASK_WR2`: any byte with exactly five bits set (R154). A choice that is no such byte stands for `1F` (log 8). -/
def maskWr2 (P : Params) : Byte := if popcount P.wr2 = 5 then P.wr2 else 0x1F

/-- `MASK_FT2`: exactly one bit set (R156). -/
def maskFt2 (P : Params) : Byte := BitVec.ofNat 8 (2 ^ P.ft2Bit.val)

/-- The six byte roles, in the order of `FLG[0..5]` (R30). -/
inductive Role where
  | st1 | st2 | wr1 | wr2 | ft1 | ft2
  deriving DecidableEq, Repr

/-- `MASK[0..5]` (41_bitfield_decoder.md section 2). -/
def maskOf (P : Params) : Role → Byte
  | .st1 => 0x0F
  | .st2 => 0x03
  | .wr1 => 0xFF
  | .wr2 => maskWr2 P
  | .ft1 => 0xFF
  | .ft2 => maskFt2 P

/-- A table of `(FlagName, bitIndex)` pairs (R150). -/
abbrev BitTable := List (String × Nat)

/-- The bit positions a mask names, from bit 0 up. -/
def namedBits (m : Byte) : List Nat := (List.range 8).filter fun i => m.getLsbD i

/-- The six fixed tables (R151 to R156). The tables with OPEN names pair the device's names with the mask's positions
from bit 0 up; the names have no effect on any register (log 19). -/
def tableOf (P : Params) : Role → BitTable
  | .st1 => [("chargingTempLimit", 3), ("batteryVoltageFull", 2), ("chargingStatus", 1), ("dcOutputStatus", 0)]
  | .st2 => [("alarmStatus", 1), ("faultStatus", 0)]
  | .wr1 => P.nameWr1.toList.zip (namedBits 0xFF)
  | .wr2 => P.nameWr2.toList.zip (namedBits (maskWr2 P))
  | .ft1 => P.nameFt1.toList.zip (namedBits 0xFF)
  | .ft2 => [("batteryVoltageInputError", P.ft2Bit.val)]

end Sys2Proof.Machine
end

