-- ==== Sys2Proof/Machine/State.lean ====
section
/-! DEFINITION. The state of the block (10_state.md R20), one structure per unit, plain data; its reasons to stop; and
the state after reset (R44). -/

namespace Sys2Proof.Machine

/-- `FSM`, the parser's position in the frame (R21). -/
inductive Fsm where
  | m0 | m1 | m2 | m3 | len | payl | csum | ok | err
  deriving DecidableEq, Repr

/-- The error kinds of `ERRC`, `DERR` and `PSERR` (60_exceptions.md R261). -/
inductive ErrCode where
  | noError | headerMismatch | truncated | checksumMismatch | timeoutError
  deriving DecidableEq, Repr

/-- `PS`, the session state (R40, R235). -/
inductive Ps where
  | idle | await | validating | done | failed
  deriving DecidableEq, Repr

/-- A byte array as its written bytes, by offset: offsets strictly rising. A byte nothing has written is not listed and
has no value (log 6). -/
abbrev Mem := List Host.Cell

/-- U-FRAME's registers (R21 to R27). -/
structure ParserRegs where
  fsm  : Fsm
  lenr : Byte
  cnt  : Byte
  sum  : Byte
  plen : Byte
  errc : ErrCode
  pay  : Mem
  deriving DecidableEq, Repr

/-- `FLG[0..5]`, by role (R30). -/
structure FlagRegs where
  st1 : Byte
  st2 : Byte
  wr1 : Byte
  wr2 : Byte
  ft1 : Byte
  ft2 : Byte
  deriving DecidableEq, Repr

/-- The composer's result registers (R31). -/
structure CompRegs where
  ci : Half
  cf : Half
  cd : BitVec 3
  cm : BitVec 33
  deriving DecidableEq, Repr

/-- A composed telemetry triple `X_I`, `X_F`, `X_D` (R33). -/
structure Composed where
  i : Half
  f : Half
  d : BitVec 3
  deriving DecidableEq, Repr

/-- The telemetry registers (R32 to R36). -/
structure Telemetry where
  pv : Half
  bv : Half
  cc : Composed
  cp : BitVec 40
  bcap : Byte
  bcells : Byte
  btype : Byte
  btempV : Bool
  btemp : Byte
  temp : List Byte
  eday : Composed
  etot : Composed
  run : Composed
  year : Half
  mon : Byte
  day : Byte
  hour : Byte
  min : Byte
  sec : Byte
  wday : Byte
  sBtype : Half
  sSysv : Half
  sChgpct : Half
  sLowv : Half
  sStrongv : Half
  sFloatv : Half
  sDcout : Half
  sOnoff : Half
  sRecovv : Half
  vmaj : Byte
  vmin : Byte
  mtype : Byte
  deriving DecidableEq, Repr

/-- U-TELE's registers: `TVALID`, `DERR` (R38) and the record. -/
structure TeleRegs where
  tvalid : Bool
  derr   : ErrCode
  record : Telemetry
  deriving DecidableEq, Repr

/-- `TXB[0..17]` and `TXLEN` (R39). -/
structure TxRegs where
  txb   : Mem
  txlen : BitVec 5
  deriving DecidableEq, Repr

/-- The session registers (R40). `RETRY` is a natural number, which the invariant keeps within the `W_RETRY` bits of `wRetry`
(log 10). -/
structure SessRegs where
  ps    : Ps
  pserr : ErrCode
  retry : Nat
  deriving DecidableEq, Repr

/-- The state of the block (R20). The last two fields are the model's own: the inputs not yet taken (log 1), and how
many resets there have been, by which the values reset leaves unspecified are told apart (log 14). -/
structure State where
  parser : ParserRegs
  cmderr : Bool
  flg    : FlagRegs
  comp   : CompRegs
  tele   : TeleRegs
  tx     : TxRegs
  sess   : SessRegs
  port   : List Input
  resets : Nat
  deriving DecidableEq, Repr

/-- Why the machine stops in a state no run from reset reaches (log 6, log 12). -/
inductive Fault where
  /-- Raised by `RXBYTE` in `PAYL` when `CNT` is past the last offset of `PAY`. Safe: the
  spec has no such access (20_memory.md R63). -/
  | payAddress
  /-- Raised by `DECODE` (and `PSVAL`) when a payload byte that `PLEN` counts was never written. Safe: the spec has
  no such read (R62, R292). -/
  | payUnwritten
  deriving DecidableEq, Repr

/-- Requests without a meaning. -/
inductive Refusal where
  /-- Raised by exec's arms of instructions not modelled yet; there are none. Safe. -/
  | notModelled (mnemonic : String)
  /-- Raised by the step for outbound bytes of neither wire format (30_encoding.md R90, log 4). Safe: the spec gives the
  block no such request. -/
  | notOutbound
  deriving DecidableEq, Repr

/-- The free value of an unspecified register at reset number `k` (R44, log 5). -/
def freeReg (k : Nat) (name : String) (width : Nat) : BitVec width := Config.unspecified k name 0 width

/-- `FLG[0..5]` after reset: unspecified (R44). -/
def FlagRegs.reset (k : Nat) : FlagRegs where
  st1 := Config.unspecified k "FLG" 0 8
  st2 := Config.unspecified k "FLG" 1 8
  wr1 := Config.unspecified k "FLG" 2 8
  wr2 := Config.unspecified k "FLG" 3 8
  ft1 := Config.unspecified k "FLG" 4 8
  ft2 := Config.unspecified k "FLG" 5 8

/-- `CI`, `CF`, `CD`, `CM` after reset: unspecified (R44). -/
def CompRegs.reset (k : Nat) : CompRegs where
  ci := freeReg k "CI" 16
  cf := freeReg k "CF" 16
  cd := freeReg k "CD" 3
  cm := freeReg k "CM" 33

/-- Every `T_*` and `S_*` register after reset: unspecified (R44). -/
def Telemetry.reset (k : Nat) : Telemetry where
  pv := freeReg k "T_PV" 16
  bv := freeReg k "T_BV" 16
  cc := ⟨freeReg k "T_CC_I" 16, freeReg k "T_CC_F" 16, freeReg k "T_CC_D" 3⟩
  cp := freeReg k "T_CP" 40
  bcap := freeReg k "T_BCAP" 8
  bcells := freeReg k "T_BCELLS" 8
  btype := freeReg k "T_BTYPE" 8
  btempV := (freeReg k "T_BTEMP_V" 1).getLsbD 0
  btemp := freeReg k "T_BTEMP" 8
  temp := (List.range (nTempOther Config.params)).map fun j => Config.unspecified k "T_TEMP" j 8
  eday := ⟨freeReg k "T_EDAY_I" 16, freeReg k "T_EDAY_F" 16, freeReg k "T_EDAY_D" 3⟩
  etot := ⟨freeReg k "T_ETOT_I" 16, freeReg k "T_ETOT_F" 16, freeReg k "T_ETOT_D" 3⟩
  run := ⟨freeReg k "T_RUN_I" 16, freeReg k "T_RUN_F" 16, freeReg k "T_RUN_D" 3⟩
  year := freeReg k "T_YEAR" 16
  mon := freeReg k "T_MON" 8
  day := freeReg k "T_DAY" 8
  hour := freeReg k "T_HOUR" 8
  min := freeReg k "T_MIN" 8
  sec := freeReg k "T_SEC" 8
  wday := freeReg k "T_WDAY" 8
  sBtype := freeReg k "S_BTYPE" 16
  sSysv := freeReg k "S_SYSV" 16
  sChgpct := freeReg k "S_CHGPCT" 16
  sLowv := freeReg k "S_LOWV" 16
  sStrongv := freeReg k "S_STRONGV" 16
  sFloatv := freeReg k "S_FLOATV" 16
  sDcout := freeReg k "S_DCOUT" 16
  sOnoff := freeReg k "S_ONOFF" 16
  sRecovv := freeReg k "S_RECOVV" 16
  vmaj := freeReg k "T_VMAJ" 8
  vmin := freeReg k "T_VMIN" 8
  mtype := freeReg k "T_MTYPE" 8

/-- The state that reset number `k` leaves, with the inputs that are still to come (R44, R290). -/
def State.afterReset (k : Nat) (port : List Input) : State where
  parser := { fsm := .m0, lenr := 0, cnt := 0, sum := 0, plen := 0, errc := .noError, pay := [] }
  cmderr := false
  flg := .reset k
  comp := .reset k
  tele := { tvalid := false, derr := .noError, record := .reset k }
  tx := { txb := [], txlen := 0 }
  sess := { ps := .idle, pserr := .noError, retry := 0 }
  port := port
  resets := k

/-- The block right after reset (R44), with no input pending. -/
def State.reset : State := State.afterReset 0 []

end Sys2Proof.Machine
end

