-- ==== Sys2Proof/Machine/Ops.lean ====
section
/-! DEFINITION. The named operations over memory and registers: byte arrays (20_memory.md R62, R63), raising an error
(60_exceptions.md R263) and becoming usable again (R270), and the refusal of a command (R268). -/

namespace Sys2Proof.Machine

/-- The byte at an offset, if anything has written it. -/
def Mem.read : Mem → Nat → Option Byte
  | [], _ => none
  | (k, v) :: m, a => if k = a then some v else Mem.read m a

/-- `MemWrite` of one byte: the offset gets the byte, in its place in the rising order (R63). -/
def Mem.write : Mem → Nat → Byte → Mem
  | [], a, b => [(a, b)]
  | (k, v) :: m, a, b =>
    if a < k then (a, b) :: (k, v) :: m
    else if a = k then (a, b) :: m
    else (k, v) :: Mem.write m a b

/-- `MemWrite(S, a, n, v)`: the bytes `v` at offsets `a`, `a + 1`, … (R63). -/
def Mem.writeAll (m : Mem) (a : Nat) : List Byte → Mem
  | [] => m
  | b :: bs => Mem.writeAll (Mem.write m a b) (a + 1) bs

/-- The canonical form of an array of `size` bytes: offsets strictly rising from `lo` on, all below `size`. -/
def Mem.wfFrom (size : Nat) : (lo : Nat) → Mem → Bool
  | _, [] => true
  | lo, (k, _) :: m => decide (lo ≤ k) && decide (k < size) && Mem.wfFrom size (k + 1) m

/-- The canonical form of an array of `size` bytes. -/
def Mem.wf (size : Nat) (m : Mem) : Bool := Mem.wfFrom size 0 m

/-- The units that can raise an error (R263). -/
inductive ErrUnit where
  | frame | tele | poll
  deriving DecidableEq, Repr

/-- `raise E(unit)`: the unit's code field gets the kind and the unit goes to its error state; nothing is saved and
control goes nowhere (R263). This is the block's taking of an exception. -/
def raise (u : ErrUnit) (e : ErrCode) (s : State) : State :=
  match u with
  | .frame => { s with parser := { s.parser with errc := e, fsm := .err } }
  | .tele => { s with tele := { s.tele with derr := e, tvalid := false } }
  | .poll => { s with sess := { s.sess with pserr := e, ps := .failed } }

/-- The parser made a fresh instance, as `START` and `PSCHECK 1` do: the return from a parser error (R121, R238, R270).
`PAY` keeps its bytes. -/
def freshParser (s : State) : State :=
  { s with parser := { s.parser with fsm := .m0, lenr := 0, cnt := 0, sum := 0, plen := 0, errc := .noError } }

/-- `refuse`: `CMDERR` is set, nothing else changes (R268). -/
def refuse (s : State) : State := { s with cmderr := true }

/-- `TXB[0 ..< n]` gets the bytes of a command, `TXLEN` their number (R220, R222, R236). -/
def sendBytes (bs : List Byte) (s : State) : State :=
  { s with tx := { txb := Mem.writeAll s.tx.txb 0 bs, txlen := BitVec.ofNat 5 bs.length } }

/-- The bytes handed over for writing, `TXB[0 ..< TXLEN]`, `TXB[0]` first (44_command_encoder.md R221). -/
def TxRegs.outbound (x : TxRegs) : List (Option Byte) := (List.range x.txlen.toNat).map (Mem.read x.txb)

/-- The outcome of an operation that may meet a fault. -/
def finish : Except Fault State → Host.Outcome State Fault Refusal
  | .ok s => .next s
  | .error f => .fault f

end Sys2Proof.Machine
end

