-- ==== Sys2Proof/Machine/Flags.lean ====
section
/-! DEFINITION. Flags: `decodeBits` and the flag registers (41_bitfield_decoder.md R150 to R166), the numbers of the
state and error codes, and the `STATUS` view (10_state.md R28). -/

namespace Sys2Proof.Machine

/-- `decodeBits(byte, table)`: each name with the bit its pair gives (R150). -/
def decodeBits (b : Byte) (t : BitTable) : List (String × Bool) := t.map fun p => (p.1, b.getLsbD p.2)

/-- The byte a role's register holds after decoding `b`: the bits the table does not name forced to 0 (R30). -/
def maskedFlags (P : Params) (r : Role) (b : Byte) : Byte := b &&& maskOf P r

/-- `FLG[t]` (R30). -/
def FlagRegs.get (f : FlagRegs) : Role → Byte
  | .st1 => f.st1
  | .st2 => f.st2
  | .wr1 => f.wr1
  | .wr2 => f.wr2
  | .ft1 => f.ft1
  | .ft2 => f.ft2

/-- `FLG[t] <- v` (R30). -/
def FlagRegs.set (f : FlagRegs) (r : Role) (v : Byte) : FlagRegs :=
  match r with
  | .st1 => { f with st1 := v }
  | .st2 => { f with st2 := v }
  | .wr1 => { f with wr1 := v }
  | .wr2 => { f with wr2 := v }
  | .ft1 => { f with ft1 := v }
  | .ft2 => { f with ft2 := v }

/-- The group Status, one Boolean per named bit of status1 and status2 (R151, R152, R165, R166). -/
structure StatusGroup where
  chargingTempLimit  : Bool
  batteryVoltageFull : Bool
  chargingStatus     : Bool
  dcOutputStatus     : Bool
  alarmStatus        : Bool
  faultStatus        : Bool
  deriving DecidableEq, Repr

/-- A flag byte whose names are OPEN, one Boolean per bit position (R153 to R155, R166). -/
structure LaneFlags where
  b0 : Bool
  b1 : Bool
  b2 : Bool
  b3 : Bool
  b4 : Bool
  b5 : Bool
  b6 : Bool
  b7 : Bool
  deriving DecidableEq, Repr

/-- The lanes of a byte. -/
def lanes (b : Byte) : LaneFlags :=
  ⟨b.getLsbD 0, b.getLsbD 1, b.getLsbD 2, b.getLsbD 3, b.getLsbD 4, b.getLsbD 5, b.getLsbD 6, b.getLsbD 7⟩

/-- The group Warning, one Boolean per bit position of warn1 and warn2 (R153, R154, R165, R166). -/
structure WarningGroup where
  warn1 : LaneFlags
  warn2 : LaneFlags
  deriving DecidableEq, Repr

/-- The group Fault: fault1 and fault2 by bit position, and the one flag of fault2 by its name (R155, R156, R165, R166). -/
structure FaultGroup where
  fault1 : LaneFlags
  fault2 : LaneFlags
  batteryVoltageInputError : Bool
  deriving DecidableEq, Repr

/-- The group Status of `FLG[0]` and `FLG[1]` (R157, R158, R165). -/
def FlagRegs.status (f : FlagRegs) : StatusGroup where
  chargingTempLimit := f.st1.getLsbD 3
  batteryVoltageFull := f.st1.getLsbD 2
  chargingStatus := f.st1.getLsbD 1
  dcOutputStatus := f.st1.getLsbD 0
  alarmStatus := f.st2.getLsbD 1
  faultStatus := f.st2.getLsbD 0

/-- The group Warning of `FLG[2]` and `FLG[3]` (R159, R160, R165). A position outside `MASK_WR2` is no flag and reads false. -/
def FlagRegs.warning (P : Params) (f : FlagRegs) : WarningGroup where
  warn1 := lanes f.wr1
  warn2 := lanes (maskedFlags P .wr2 f.wr2)

/-- The group Fault of `FLG[4]` and `FLG[5]`, with `batteryVoltageInputError = (FLG[5] ≠ 0)` (R161, R162, R165). A position
outside `MASK_FT2` is no flag and reads false. -/
def FlagRegs.fault (P : Params) (f : FlagRegs) : FaultGroup where
  fault1 := lanes f.ft1
  fault2 := lanes (maskedFlags P .ft2 f.ft2)
  batteryVoltageInputError := f.ft2 != 0

/-- The number of an error kind (R261). -/
def ErrCode.code : ErrCode → BitVec 3
  | .noError => 0
  | .headerMismatch => 1
  | .truncated => 2
  | .checksumMismatch => 3
  | .timeoutError => 4

/-- The number of a parser state (R21). -/
def Fsm.code : Fsm → BitVec 4
  | .m0 => 0
  | .m1 => 1
  | .m2 => 2
  | .m3 => 3
  | .len => 4
  | .payl => 5
  | .csum => 6
  | .ok => 7
  | .err => 8

/-- The number of a session state (R40). -/
def Ps.code : Ps → BitVec 3
  | .idle => 0
  | .await => 1
  | .validating => 2
  | .done => 3
  | .failed => 4

/-- `STATUS`, the packed read-only view, bits 31 down to 0 (R28). -/
def State.status (s : State) : BitVec 32 :=
  (0 : BitVec 6) ++ s.sess.pserr.code ++ s.sess.ps.code ++ s.tele.derr.code ++ BitVec.ofBool s.tele.tvalid ++
    s.parser.plen ++ BitVec.ofBool s.cmderr ++ s.parser.errc.code ++ s.parser.fsm.code

/-- A parser verdict has been reached: `FSM ∈ {OK, ERR}` (R129). -/
def Fsm.verdict : Fsm → Bool
  | .ok => true
  | .err => true
  | .m0 => false
  | .m1 => false
  | .m2 => false
  | .m3 => false
  | .len => false
  | .payl => false
  | .csum => false

/-- A session is active: `PS ∈ {AWAIT, VALIDATING}` (R236, R242). -/
def Ps.active : Ps → Bool
  | .await => true
  | .validating => true
  | .idle => false
  | .done => false
  | .failed => false

end Sys2Proof.Machine
end

