-- ==== Sys2Proof/Machine/Bits.lean ====
section
/-! DEFINITION. U-BITS: the six flag decoders (41_bitfield_decoder.md R157 to R162). -/

namespace Sys2Proof.Machine

/-- `FLG[t] <- b & MASK[t]`, nothing else. -/
def decodeRole (P : Params) (r : Role) (b : Byte) (s : State) : State :=
  { s with flg := s.flg.set r (maskedFlags P r b) }

/-- `DECST1 b` (R157). -/
def execDecst1 (b : Byte) (s : State) : Host.Outcome State Fault Refusal := .next (decodeRole Config.params .st1 b s)

/-- `DECST2 b` (R158). -/
def execDecst2 (b : Byte) (s : State) : Host.Outcome State Fault Refusal := .next (decodeRole Config.params .st2 b s)

/-- `DECWR1 b` (R159). -/
def execDecwr1 (b : Byte) (s : State) : Host.Outcome State Fault Refusal := .next (decodeRole Config.params .wr1 b s)

/-- `DECWR2 b` (R160). -/
def execDecwr2 (b : Byte) (s : State) : Host.Outcome State Fault Refusal := .next (decodeRole Config.params .wr2 b s)

/-- `DECFT1 b` (R161). -/
def execDecft1 (b : Byte) (s : State) : Host.Outcome State Fault Refusal := .next (decodeRole Config.params .ft1 b s)

/-- `DECFT2 b` (R162). -/
def execDecft2 (b : Byte) (s : State) : Host.Outcome State Fault Refusal := .next (decodeRole Config.params .ft2 b s)

end Sys2Proof.Machine
end

