-- ==== Sys2Proof/Machine/Decimal.lean ====
section
/-! DEFINITION. Decimal text and exact decimals (00_scope.md R15, R16; 42_fixed_point_composer.md R170, R174). -/

namespace Sys2Proof.Machine

/-- Text is the list of its characters (log 20). -/
abbrev Text := List Char

/-- The character of one decimal digit (R14). -/
def digitChar (d : Nat) : Char := Char.ofNat (48 + d % 10)

/-- The decimal digits of `n`, most significant first; `fuel ≥ n` is enough. -/
def decAux : (fuel n : Nat) → Text
  | 0, n => [digitChar n]
  | fuel + 1, n => if n < 10 then [digitChar n] else decAux fuel (n / 10) ++ [digitChar n]

/-- `dec(n)`: decimal digits without leading zeros, `dec(0) = "0"` (R15). -/
def dec (n : Nat) : Text := decAux n n

/-- `ndigits(n) = len(dec(n))` (R15). -/
def ndigits (n : Nat) : Nat := (dec n).length

/-- `pad(n, w)`: zeros in front up to `w` characters, nothing cut (R15). -/
def pad (n w : Nat) : Text := List.replicate (w - ndigits n) '0' ++ dec n

/-- An exact decimal `(M, D)`, the rational `M / 10^D` with `D` digits after the point (R16). -/
structure ExactDecimal where
  m : Nat
  d : Nat
  deriving DecidableEq, Repr

/-- Numeric equality of two exact decimals; equality of representation is `=` (R174). -/
def ExactDecimal.numEq (x y : ExactDecimal) : Bool := x.m * 10 ^ y.d == y.m * 10 ^ x.d

/-- The text with exactly `D` digits after the point (R16); without a digit after it there is no point (log 20). -/
def ExactDecimal.text (x : ExactDecimal) : Text :=
  if x.d = 0 then dec x.m else dec (x.m / 10 ^ x.d) ++ '.' :: pad (x.m % 10 ^ x.d) x.d

/-- `compose(I, F) = (I × 10^D + F, D)` with `D = ndigits(F)` (R170). -/
def compose (i f : Nat) : ExactDecimal := ⟨i * 10 ^ ndigits f + f, ndigits f⟩

/-- `text(I, F) = dec(I) ++ "." ++ dec(F)` (R170). -/
def composeText (i f : Nat) : Text := dec i ++ '.' :: dec f

end Sys2Proof.Machine
end

