-- ==== Sys2Proof/Machine/Operands.lean ====
section
/-! DEFINITION. The operand forms of the telemetry decoder (43_telemetry_decoder.md R188): single bytes, 16-bit
little-endian pairs, parts of one or two bytes, composed pairs, and the sentinel byte. -/

namespace Sys2Proof.Machine

/-- The 56 payload bytes that the decoder reads, by payload offset (R185, R187). -/
abbrev Window := Fin 56 → Byte

/-- `MemRead(PAY, a, 1)`: admitted only when `FSM = OK` and `a + 1 ≤ PLEN` (20_memory.md R62). -/
def readPay (s : State) (a : Nat) : Option Byte :=
  if s.parser.fsm = .ok ∧ a + 1 ≤ s.parser.plen.toNat then Mem.read s.parser.pay a else none

/-- The window `PAY[0 ..< 56]` of a validated payload. A byte that nothing has written is a fault (log 6, log 13). -/
def payWindow (s : State) : Except Fault Window :=
  if h : ∀ a : Fin 56, (readPay s a.val).isSome then .ok fun a => (readPay s a.val).get (h a)
  else .error .payUnwritten

/-- `U8(a)` (R188). -/
def u8 (w : Window) (a : Fin 56) : Byte := w a

/-- `U16(a)`: low byte at the lower offset (R188, R64). -/
def u16 (w : Window) (a : Fin 55) : Half := u16le (w a.castSucc) (w a.succ)

/-- `Part((a, w))`: zero-extended to 16 bits (R188). -/
def part (w : Window) : PartAt → Half
  | .one a => (u8 w a).zeroExtend 16
  | .two a => u16 w a

/-- The composed triple of two parts: `(I, F, ndigits(F))` (R188, R33). -/
def composed (i f : Half) : Composed := ⟨i, f, BitVec.ofNat 3 (ndigits f.toNat)⟩

/-- `Comp(pi, pf)` (R188). -/
def comp (w : Window) (pi pf : PartAt) : Composed := composed (part w pi) (part w pf)

/-- `Sentinel(b)`: whether the temperature is there, and its register, which keeps its stale value when it is not
(R188, R194, log 11). -/
def sentinel (b old : Byte) : Bool × Byte := if b = 255 then (false, old) else (true, b)

/-- The exact decimal a composed triple stands for: `(X_I × 10^X_D + X_F, X_D)` (R33). -/
def Composed.exact (c : Composed) : ExactDecimal := ⟨c.i.toNat * 10 ^ c.d.toNat + c.f.toNat, c.d.toNat⟩

end Sys2Proof.Machine
end

