-- ==== Sys2Proof/Machine/Composer.lean ====
section
/-! DEFINITION. U-COMP: the digit-concatenation composer's operation (42_fixed_point_composer.md R171). The function
itself is `compose` of Decimal.lean. -/

namespace Sys2Proof.Machine

/-- `CI`, `CF`, `CD`, `CM` from the two parts; `CM` fits its 33 bits (R31, R171, R177). -/
def composeRegs (i f : Half) : CompRegs where
  ci := i
  cf := f
  cd := BitVec.ofNat 3 (ndigits f.toNat)
  cm := BitVec.ofNat 33 (compose i.toNat f.toNat).m

/-- `COMPOSE i, f` (R171). -/
def execCompose (i f : Half) (s : State) : Host.Outcome State Fault Refusal := .next { s with comp := composeRegs i f }

/-- The exact decimal `(CM, CD)` the composer registers stand for (R31). -/
def CompRegs.exact (c : CompRegs) : ExactDecimal := ⟨c.cm.toNat, c.cd.toNat⟩

end Sys2Proof.Machine
end

