-- ==== Sys2Proof/Syntax.lean ====
section
/-! DEFINITION. The instructions: one constructor per row of spec/opcode_table.json (30_encoding.md R97, R98; the wire
rows R91, R93, R94). -/

namespace Sys2Proof

/-- One operation of the command port, or one wire unit. -/
inductive Instr where
  /-- `START` (R121). -/
  | start
  /-- `RXBYTE b` (R122). -/
  | rxbyte (b : Byte)
  /-- `RXEND` (R128). -/
  | rxend
  /-- `DECST1 b` (R157). -/
  | decst1 (b : Byte)
  /-- `DECST2 b` (R158). -/
  | decst2 (b : Byte)
  /-- `DECWR1 b` (R159). -/
  | decwr1 (b : Byte)
  /-- `DECWR2 b` (R160). -/
  | decwr2 (b : Byte)
  /-- `DECFT1 b` (R161). -/
  | decft1 (b : Byte)
  /-- `DECFT2 b` (R162). -/
  | decft2 (b : Byte)
  /-- `COMPOSE i, f` (R171). -/
  | compose (i f : Half)
  /-- `DECODE` (R186). -/
  | decode
  /-- `ENCPOLL` (R220). -/
  | encpoll
  /-- `ENCCLK year, month, day, hour, minute, second` (R222). -/
  | encclk (year : Half) (month day hour minute second : Byte)
  /-- `PSPOLL` (R236). -/
  | pspoll
  /-- `PSCHECK p` (R238). -/
  | pscheck (p : Bool)
  /-- `PSVAL` (R239). -/
  | psval
  /-- `WIRE_RESP`: the whole received buffer, wire offset 0 first (R91). -/
  | wireResp (buf : List Byte)
  /-- `WIRE_POLL` (R93). -/
  | wirePoll
  /-- `WIRE_SETCLK`, by its seven variable bytes, the year's two as one value (R94, R95). -/
  | wireSetclk (year : Half) (month day hour minute second : Byte)
  deriving DecidableEq, Repr

end Sys2Proof
end

