-- ==== Sys2Proof/WellFormed.lean ====
section
/-! DEFINITION. Well-formed instructions. The operands of the sixteen operations are fields of their own width, so every
value is well formed (30_encoding.md R98, R223). A `WIRE_RESP` is well formed when it is exactly a frame of R91. -/

namespace Sys2Proof

open Machine (magic sum8)

/-- The buffer begins with the magic (R91). -/
def frameMagicOk (buf : List Byte) : Bool := buf.take 4 == magic

/-- The length byte of a buffer, wire offset 4 (R91). -/
def frameLength (buf : List Byte) : Option Byte := buf[4]?

/-- A length byte of 1 to 255 is there (R91). -/
def frameLengthOk (buf : List Byte) : Bool :=
  match frameLength buf with
  | some l => l != 0
  | none => false

/-- The buffer has exactly the `5 + L` bytes of the frame (R70, R92). -/
def frameSizeOk (buf : List Byte) : Bool :=
  match frameLength buf with
  | some l => buf.length == 5 + l.toNat
  | none => false

/-- The last byte is `sum8` of the payload, which runs from wire offset 5 up to it (R91). -/
def frameChecksumOk (buf : List Byte) : Bool :=
  buf.getLast? == some (sum8 ((buf.drop 5).dropLast))

/-- The instruction is one the encodings of the spec can express as they stand. -/
def Instr.wf : Instr → Bool
  | .wireResp buf => frameMagicOk buf && frameLengthOk buf && frameSizeOk buf && frameChecksumOk buf
  | .start => true
  | .rxbyte _ => true
  | .rxend => true
  | .decst1 _ => true
  | .decst2 _ => true
  | .decwr1 _ => true
  | .decwr2 _ => true
  | .decft1 _ => true
  | .decft2 _ => true
  | .compose _ _ => true
  | .decode => true
  | .encpoll => true
  | .encclk _ _ _ _ _ _ => true
  | .pspoll => true
  | .pscheck _ => true
  | .psval => true
  | .wirePoll => true
  | .wireSetclk _ _ _ _ _ _ => true

end Sys2Proof
end

