-- ==== Sys2Proof/Decode.lean ====
section
/-! DEFINITION. From the words of a request to an instruction, and back (30_encoding.md R96 to R101; the wire rows of
spec/opcode_table.json). -/

namespace Sys2Proof

open Machine

/-- Why a request is no instruction, by name. -/
inductive Reject where
  /-- The `op` byte is not in the opcode map (R100). -/
  | undefinedOpcode (op : Byte)
  /-- A received buffer does not begin with the magic, so it is no `WIRE_RESP` (R91, R103). -/
  | notMagic (buf : List Byte)
  /-- The bytes are of neither outbound wire format (R90). -/
  | notOutbound (bytes : List Byte)
  deriving DecidableEq, Repr

/-- `op` = `CMD[63:56]` (R96). -/
def opOf (w : CmdWord) : Byte := w.extractLsb' 56 8

/-- The byte of the command word whose lowest bit is `lo`. -/
def byteAt (w : CmdWord) (lo : Nat) : Byte := w.extractLsb' lo 8

/-- The 16-bit field of the command word whose lowest bit is `lo`. -/
def halfAt (w : CmdWord) (lo : Nat) : Half := w.extractLsb' lo 16

/-- One row of the opcode map: its opcode, and the instruction it makes of the command word (R97, R98). -/
structure OpRow where
  op   : Byte
  read : CmdWord → Instr

/-- The opcode map (R97) with the operand fields (R98), in its order. -/
def opRows : List OpRow :=
  [ ⟨0x01, fun _ => .start⟩,
    ⟨0x02, fun w => .rxbyte (byteAt w 0)⟩,
    ⟨0x03, fun _ => .rxend⟩,
    ⟨0x10, fun w => .decst1 (byteAt w 0)⟩,
    ⟨0x11, fun w => .decst2 (byteAt w 0)⟩,
    ⟨0x12, fun w => .decwr1 (byteAt w 0)⟩,
    ⟨0x13, fun w => .decwr2 (byteAt w 0)⟩,
    ⟨0x14, fun w => .decft1 (byteAt w 0)⟩,
    ⟨0x15, fun w => .decft2 (byteAt w 0)⟩,
    ⟨0x20, fun w => .compose (halfAt w 16) (halfAt w 0)⟩,
    ⟨0x30, fun _ => .decode⟩,
    ⟨0x40, fun _ => .encpoll⟩,
    ⟨0x41, fun w => .encclk (halfAt w 40) (byteAt w 32) (byteAt w 24) (byteAt w 16) (byteAt w 8) (byteAt w 0)⟩,
    ⟨0x50, fun _ => .pspoll⟩,
    ⟨0x51, fun w => .pscheck (w.getLsbD 0)⟩,
    ⟨0x52, fun _ => .psval⟩ ]

/-- Match and mask: the row is selected by `op` alone; the other bits are ignored where no field takes them
(R99, R101). -/
def decodeCmd (w : CmdWord) : Except Reject Instr :=
  match opRows.find? fun r => r.op == opOf w with
  | some r => .ok (r.read w)
  | none => .error (.undefinedOpcode (opOf w))

/-- A received buffer is a `WIRE_RESP` when its first four bytes are the magic (the table's match and mask). -/
def decodeRx (buf : List Byte) : Except Reject Instr :=
  if buf.take 4 = magic then .ok (.wireResp buf) else .error (.notMagic buf)

/-- The outbound formats: the 11 bytes of `WIRE_POLL`, or the 18 bytes of `WIRE_SETCLK`, of which the table fixes no bit
(R93, R94). The preamble bytes are not compared (log 3). -/
def decodeTx (bytes : List Byte) : Except Reject Instr :=
  if bytes = pollLiteral then .ok .wirePoll
  else
    match bytes.drop 11 with
    | [yh, yl, mo, d, h, mi, s] => .ok (.wireSetclk (u16le yl yh) mo d h mi s)
    | _ => .error (.notOutbound bytes)

/-- The instruction a request stands for, or why it is none. Total on all requests. -/
def decode : Request → Except Reject Instr
  | .cmd w => decodeCmd w
  | .rx buf => decodeRx buf
  | .tx bytes => decodeTx bytes

/-- A command word from its opcode byte and its 56 operand bits (R96). -/
def cmdWord (op : Byte) (arg : BitVec 56) : CmdWord := op ++ arg

/-- An operand field of one byte in `arg[7:0]`, the other bits written as 0 (R98, R101). -/
def byteArg (b : Byte) : BitVec 56 := (0 : BitVec 48) ++ b

/-- The operands of `ENCCLK` in `arg` (R98). -/
def clockArg (year : Half) (month day hour minute second : Byte) : BitVec 56 :=
  year ++ month ++ day ++ hour ++ minute ++ second

/-- The bytes `SETCLOCK_PREAMBLE[0..10]`, in order (R94). -/
def preambleBytes (P : Params) : List Byte :=
  [P.preamble[0], P.preamble[1], P.preamble[2], P.preamble[3], P.preamble[4], P.preamble[5], P.preamble[6], P.preamble[7],
    P.preamble[8], P.preamble[9], P.preamble[10]]

/-- The wire bytes of the clock-set command (R94, R95). -/
def setclkBytes (P : Params) (year : Half) (month day hour minute second : Byte) : List Byte :=
  preambleBytes P ++ [highByte year, lowByte year, month, day, hour, minute, second]

/-- The request that stands for an instruction: its words, reserved bits 0 (R97, R98, R101; R91, R93, R94). -/
def encode : Instr → Request
  | .start => .cmd (cmdWord 0x01 0)
  | .rxbyte b => .cmd (cmdWord 0x02 (byteArg b))
  | .rxend => .cmd (cmdWord 0x03 0)
  | .decst1 b => .cmd (cmdWord 0x10 (byteArg b))
  | .decst2 b => .cmd (cmdWord 0x11 (byteArg b))
  | .decwr1 b => .cmd (cmdWord 0x12 (byteArg b))
  | .decwr2 b => .cmd (cmdWord 0x13 (byteArg b))
  | .decft1 b => .cmd (cmdWord 0x14 (byteArg b))
  | .decft2 b => .cmd (cmdWord 0x15 (byteArg b))
  | .compose i f => .cmd (cmdWord 0x20 ((0 : BitVec 24) ++ i ++ f))
  | .decode => .cmd (cmdWord 0x30 0)
  | .encpoll => .cmd (cmdWord 0x40 0)
  | .encclk year month day hour minute second => .cmd (cmdWord 0x41 (clockArg year month day hour minute second))
  | .pspoll => .cmd (cmdWord 0x50 0)
  | .pscheck p => .cmd (cmdWord 0x51 ((0 : BitVec 55) ++ BitVec.ofBool p))
  | .psval => .cmd (cmdWord 0x52 0)
  | .wireResp buf => .rx buf
  | .wirePoll => .tx pollLiteral
  | .wireSetclk year month day hour minute second => .tx (setclkBytes Config.params year month day hour minute second)

/-- A response buffer of which only the leading bytes are given, filled with zeros up to the `5 + L` bytes of its
frame. -/
def padFrame (buf : List Byte) : List Byte :=
  buf ++ List.replicate (5 + (buf.getD 4 0).toNat - buf.length) 0

/-- The request whose bits are `w`, numbered as spec/opcode_table.json numbers them: `CMD64` words are 64 bits wide, the
outbound wire formats 88 and 144, and any other width is the leading bytes of a response (log 3). -/
def tableRequest (nbits w : Nat) : Request :=
  if nbits = 64 then .cmd (BitVec.ofNat 64 w)
  else if nbits = 88 then .tx (bytesOfNat 11 w)
  else if nbits = 144 then .tx (bytesOfNat 18 w)
  else .rx (padFrame (bytesOfNat (nbits / 8) w))

/-- The instruction the decoder reads from table bits, `none` where it refuses. -/
def decodeTableWord (nbits w : Nat) : Option Instr :=
  match decode (tableRequest nbits w) with
  | .ok i => some i
  | .error _ => none

end Sys2Proof
end

