-- ==== Sys2Proof/Machine/Encoder.lean ====
section
/-! DEFINITION. U-ENC: the outbound command encoder (44_command_encoder.md R220, R222), and the two outbound wire units it
produces. -/

namespace Sys2Proof.Machine

/-- `encodePoll`: the poll literal to `TXB`, `TXLEN <- 11` (R220). -/
def sendPoll (s : State) : State := sendBytes pollLiteral s

/-- `encodeSetClock`: preamble, year high byte first, and the five bytes to `TXB`, `TXLEN <- 18` (R222). -/
def sendClock (P : Params) (year : Half) (month day hour minute second : Byte) (s : State) : State :=
  sendBytes (setclkBytes P year month day hour minute second) s

/-- `ENCPOLL` (R220). -/
def execEncpoll (s : State) : Host.Outcome State Fault Refusal := .next (sendPoll s)

/-- `ENCCLK` (R222, R223, R224). -/
def execEncclk (year : Half) (month day hour minute second : Byte) (s : State) : Host.Outcome State Fault Refusal :=
  .next (sendClock Config.params year month day hour minute second s)

/-- `WIRE_POLL`: the block produces it ("produced by rule R220", spec/opcode_table.json; log 2). -/
def execWirePoll (s : State) : Host.Outcome State Fault Refusal := .next (sendPoll s)

/-- `WIRE_SETCLK`: the block produces it ("produced by rule R222", spec/opcode_table.json; log 2). -/
def execWireSetclk (year : Half) (month day hour minute second : Byte) (s : State) : Host.Outcome State Fault Refusal :=
  .next (sendClock Config.params year month day hour minute second s)

end Sys2Proof.Machine
end

