-- ==== Sys2Proof/Machine/Frame.lean ====
section
/-! DEFINITION. U-FRAME: the frame parser and checksum validator (40_frame_parser.md): the function `Validate` and the
operations `START`, `RXBYTE`, `RXEND`, and a whole `WIRE_RESP`. -/

namespace Sys2Proof.Machine

/-- `Validate(buf)` (R120): the payload, or the first check that fails. -/
def validate (buf : List Byte) : Except ErrCode (List Byte) :=
  if buf.length < 4 ∨ buf.take 4 ≠ magic then .error .headerMismatch
  else if buf.length < 5 then .error .truncated
  else
    let l := (buf.getD 4 0).toNat
    if l = 0 then .error .truncated
    else if buf.length < 5 + l then .error .truncated
    else
      let payload := (buf.drop 5).take (l - 1)
      if sum8 payload ≠ buf.getD (5 + l - 1) 0 then .error .checksumMismatch else .ok payload

/-- `FRAME(p)`: the frame built from a payload (30_encoding.md R106). -/
def frameOf (p : List Byte) : List Byte := magic ++ BitVec.ofNat 8 (p.length + 1) :: p ++ [sum8 p]

/-- `RXBYTE` in `M<k>`: the byte against `MAGIC[k]` (R122). -/
def rxMagic (k : Nat) (after : Fsm) (b : Byte) (s : State) : State :=
  if some b = magic[k]? then { s with parser := { s.parser with fsm := after } } else raise .frame .headerMismatch s

/-- `RXBYTE` in `LEN`: the length byte (R122, R124). -/
def rxLength (b : Byte) (s : State) : State :=
  let s' := { s with parser := { s.parser with lenr := b, cnt := 0, sum := 0 } }
  if b = 0 then raise .frame .truncated s'
  else if b = 1 then { s' with parser := { s'.parser with fsm := .csum } }
  else { s' with parser := { s'.parser with fsm := .payl } }

/-- `RXBYTE` in `PAYL`: a payload byte goes to `PAY[CNT]` and into `SUM`; the last one moves on to `CSUM` (R122, R125,
C10). There is no `PAY` offset past 253 (log 12). -/
def rxPayload (b : Byte) (s : State) : Except Fault State :=
  let p := s.parser
  let n := p.cnt.toNat + 1
  if p.cnt.toNat < paySize then
    .ok { s with parser := { p with
      pay := Mem.write p.pay p.cnt.toNat b
      sum := p.sum + b
      cnt := p.cnt + 1
      fsm := if n + 1 = p.lenr.toNat then .csum else p.fsm } }
  else .error .payAddress

/-- `RXBYTE` in `CSUM`: the checksum byte (R122, R125). -/
def rxChecksum (b : Byte) (s : State) : State :=
  if b = s.parser.sum then { s with parser := { s.parser with plen := s.parser.lenr - 1, fsm := .ok } }
  else raise .frame .checksumMismatch s

/-- `RXBYTE b` (R122): which byte of the frame `b` is follows from `FSM`; after a verdict nothing changes (R126). -/
def rxByte (b : Byte) (s : State) : Except Fault State :=
  match s.parser.fsm with
  | .m0 => .ok (rxMagic 0 .m1 b s)
  | .m1 => .ok (rxMagic 1 .m2 b s)
  | .m2 => .ok (rxMagic 2 .m3 b s)
  | .m3 => .ok (rxMagic 3 .len b s)
  | .len => .ok (rxLength b s)
  | .payl => rxPayload b s
  | .csum => .ok (rxChecksum b s)
  | .ok => .ok s
  | .err => .ok s

/-- `RXEND` (R128): a buffer that ended before a verdict was too short. -/
def rxEnd (s : State) : State :=
  match s.parser.fsm with
  | .m0 => raise .frame .headerMismatch s
  | .m1 => raise .frame .headerMismatch s
  | .m2 => raise .frame .headerMismatch s
  | .m3 => raise .frame .headerMismatch s
  | .len => raise .frame .truncated s
  | .payl => raise .frame .truncated s
  | .csum => raise .frame .truncated s
  | .ok => s
  | .err => s

/-- The bytes of a buffer, in order (R66). -/
def rxBytes : List Byte → State → Except Fault State
  | [], s => .ok s
  | b :: bs, s =>
    match rxByte b s with
    | .ok s' => rxBytes bs s'
    | .error f => .error f

/-- The pseudo-operation `VALIDATE buf`: `START`, the bytes, `RXEND` (30_encoding.md R106). -/
def validateBuffer (buf : List Byte) (s : State) : Except Fault State :=
  match rxBytes buf (freshParser s) with
  | .ok s' => .ok (rxEnd s')
  | .error f => .error f

/-- `START` (R121). -/
def execStart (s : State) : Host.Outcome State Fault Refusal := .next (freshParser s)

/-- `RXBYTE b` (R122). -/
def execRxbyte (b : Byte) (s : State) : Host.Outcome State Fault Refusal := finish (rxByte b s)

/-- `RXEND` (R128). -/
def execRxend (s : State) : Host.Outcome State Fault Refusal := .next (rxEnd s)

/-- `WIRE_RESP`: the received buffer is parsed (R91; "parsed by rules R120, R122", spec/opcode_table.json; log 2). -/
def execWireResp (buf : List Byte) (s : State) : Host.Outcome State Fault Refusal := finish (validateBuffer buf s)

end Sys2Proof.Machine
end

