-- ==== Sys2Proof/Machine/Telemetry.lean ====
section
/-! DEFINITION. U-TELE: the telemetry decoder (43_telemetry_decoder.md): the pure function of the payload and the
operation `DECODE`, and what the registers stand for. -/

namespace Sys2Proof.Machine

/-- `Round3(V, (I, F, D))` (R197): the product in thousandths; an exact tie takes the draw `tieUp` (log 9). -/
def round3 (tieUp : Nat → Nat → Nat → Nat → Bool) (v i f d : Nat) : Nat :=
  let num := v * (i * 10 ^ d + f)
  if d = 1 then num * 10
  else if d = 2 then num
  else
    let den := 10 ^ (d - 2)
    let q := num / den
    let r := num % den
    if 2 * r < den then q
    else if den < 2 * r then q + 1
    else if tieUp v i f q then q + 1 else q

/-- `T_CP` from the voltage register and the charging current (R192, R34). -/
def chargingPowerReg (P : Params) (bv : Half) (cc : Composed) : BitVec 40 :=
  BitVec.ofNat 40 (round3 P.tieUp bv.toNat cc.i.toNat cc.f.toNat cc.d.toNat)

/-- `FLG[0..5]` of a payload (R203). -/
def decodeFlags (P : Params) (w : Window) : FlagRegs where
  st1 := maskedFlags P .st1 (u8 w P.layout.st1)
  st2 := maskedFlags P .st2 (u8 w P.layout.st2)
  wr1 := maskedFlags P .wr1 (u8 w P.layout.wr1)
  wr2 := maskedFlags P .wr2 (u8 w P.layout.wr2)
  ft1 := maskedFlags P .ft1 (u8 w P.layout.ft1)
  ft2 := maskedFlags P .ft2 (u8 w P.layout.ft2)

/-- The telemetry registers of a payload (R186, R189 to R202). The old record matters only for a stale `T_BTEMP`
(log 11). -/
def decodeRecord (P : Params) (w : Window) (old : Telemetry) : Telemetry :=
  let l := P.layout
  let bv := u16 w l.bv
  let cc := comp w l.ccI l.ccF
  let bt := sentinel (u8 w l.btemp) old.btemp
  { pv := u16 w l.pv
    bv := bv
    cc := cc
    cp := chargingPowerReg P bv cc
    bcap := u8 w l.bcap
    bcells := u8 w l.bcells
    btype := u8 w l.btype
    btempV := bt.1
    btemp := bt.2
    temp := (l.temp0 :: l.tempMore).map (u8 w)
    eday := comp w l.edayI l.edayF
    etot := comp w l.etotI l.etotF
    run := comp w l.runI l.runF
    year := u16 w l.year
    mon := u8 w l.mon
    day := u8 w l.day
    hour := u8 w l.hour
    min := u8 w l.min
    sec := u8 w l.sec
    wday := u8 w l.wday
    sBtype := part w l.cfgBtype.part
    sSysv := part w l.cfgSysv.part
    sChgpct := part w l.cfgChgpct.part
    sLowv := part w l.cfgLowv.part
    sStrongv := part w l.cfgStrongv.part
    sFloatv := part w l.cfgFloatv.part
    sDcout := part w l.cfgDcout.part
    sOnoff := part w l.cfgOnoff.part
    sRecovv := part w l.cfgRecovv.part
    vmaj := u8 w l.vmaj
    vmin := u8 w l.vmin
    mtype := u8 w l.mtype }

/-- The successful arm of `DECODE`: every telemetry register and `FLG`, then `DERR` and `TVALID` (R186, R205). -/
def storeTelemetry (P : Params) (w : Window) (s : State) : State :=
  { s with
    flg := decodeFlags P w
    tele := { tvalid := true, derr := .noError, record := decodeRecord P w s.tele.record } }

/-- `DECODE` (R186). -/
def decodeOp (P : Params) (s : State) : Except Fault State :=
  if s.parser.fsm ≠ .ok then .ok (refuse s)
  else if s.parser.plen.toNat < minPayload then .ok (raise .tele .truncated s)
  else
    match payWindow s with
    | .ok w => .ok (storeTelemetry P w s)
    | .error f => .error f

/-- `DECODE` under this block's parameters. -/
def execDecode (s : State) : Host.Outcome State Fault Refusal := finish (decodeOp Config.params s)

/-- PV input voltage in volts: the raw value (R189). -/
def Telemetry.pvInputVoltage (t : Telemetry) : Nat := t.pv.toNat

/-- Battery voltage in volts: the exact decimal `(T_BV, 1)` (R190). -/
def Telemetry.batteryVoltage (t : Telemetry) : ExactDecimal := ⟨t.bv.toNat, 1⟩

/-- Charging current in amps (R191). -/
def Telemetry.chargingCurrent (t : Telemetry) : ExactDecimal := t.cc.exact

/-- Charging power: the exact decimal `(T_CP, 3)` (R34, R192). -/
def Telemetry.chargingPower (t : Telemetry) : ExactDecimal := ⟨t.cp.toNat, 3⟩

/-- Battery temperature, `none` when absent or unknown (R194). -/
def Telemetry.batteryTemperature (t : Telemetry) : Option Nat := if t.btempV then some t.btemp.toNat else none

/-- Daily and total generated energy in kWh (R195) and the run time in hours (R196). -/
def Telemetry.dailyEnergy (t : Telemetry) : ExactDecimal := t.eday.exact

def Telemetry.totalEnergy (t : Telemetry) : ExactDecimal := t.etot.exact

def Telemetry.runTime (t : Telemetry) : ExactDecimal := t.run.exact

/-- The units that the source gives (R207). -/
inductive MeasureUnit where
  | volts | amps | kWh | hours
  deriving DecidableEq, Repr

/-- The measured values with their scales and units, in the order of R207; `none` where the source gives no unit. -/
def Telemetry.measured (t : Telemetry) : List (String × ExactDecimal × Option MeasureUnit) :=
  [ ("pvInputVoltage", ⟨t.pvInputVoltage, 0⟩, some .volts), ("batteryVoltage", t.batteryVoltage, some .volts),
    ("chargingCurrent", t.chargingCurrent, some .amps), ("chargingPower", t.chargingPower, none),
    ("dailyEnergy", t.dailyEnergy, some .kWh), ("totalEnergy", t.totalEnergy, some .kWh),
    ("runTime", t.runTime, some .hours) ]

/-- A stored-configuration field's value under its scale: `S_x`, or the exact decimal `(S_x, 1)` (R36, R200). -/
def configValue (s : Scale) (v : Half) : ExactDecimal :=
  match s with
  | .unit => ⟨v.toNat, 0⟩
  | .tenth => ⟨v.toNat, 1⟩

/-- The nine stored-configuration values, in the order of R36, each under its layout's scale (R200). -/
def Telemetry.storedConfig (P : Params) (t : Telemetry) : List ExactDecimal :=
  let l := P.layout
  [ configValue l.cfgBtype.scale t.sBtype, configValue l.cfgSysv.scale t.sSysv,
    configValue l.cfgChgpct.scale t.sChgpct, configValue l.cfgLowv.scale t.sLowv,
    configValue l.cfgStrongv.scale t.sStrongv, configValue l.cfgFloatv.scale t.sFloatv,
    configValue l.cfgDcout.scale t.sDcout, configValue l.cfgOnoff.scale t.sOnoff,
    configValue l.cfgRecovv.scale t.sRecovv ]

/-- `Timestamp`: `YYYY-MM-DD HH:MM:SS`, each field padded, nothing cut; the weekday is not in it (R199). -/
def Telemetry.timestamp (t : Telemetry) : Text :=
  pad t.year.toNat 4 ++ '-' :: pad t.mon.toNat 2 ++ '-' :: pad t.day.toNat 2 ++ ' ' :: pad t.hour.toNat 2 ++
    ':' :: pad t.min.toNat 2 ++ ':' :: pad t.sec.toNat 2

/-- The version text `major.minor` (R201). -/
def Telemetry.versionText (t : Telemetry) : Text := dec t.vmaj.toNat ++ '.' :: dec t.vmin.toNat

end Sys2Proof.Machine
end

