-- ==== Sys2Proof/Machine/Session.lean ====
section
/-! DEFINITION. U-POLL: the poll-session sequencer (45_poll_session.md R236, R238, R239). -/

namespace Sys2Proof.Machine

/-- `PSPOLL` (R236). -/
def pollStart (s : State) : State :=
  if s.sess.ps.active then refuse s
  else { sendPoll s with sess := { ps := .await, pserr := .noError, retry := 0 } }

/-- `PSCHECK p` (R238): with `p` the parser is made fresh and the session validates; without, the failed check is
counted, and the session times out when the count exceeds `MAX_RETRIES`. -/
def pollCheck (P : Params) (p : Bool) (s : State) : State :=
  if s.sess.ps ≠ .await then refuse s
  else if p then { freshParser s with sess := { s.sess with ps := .validating } }
  else
    let n := s.sess.retry + 1
    let s' := { s with sess := { s.sess with retry := n } }
    if P.maxRetries < n then raise .poll .timeoutError s' else s'

/-- `PSVAL` (R239): the parser's verdict, then `DECODE`. -/
def pollValidate (P : Params) (s : State) : Except Fault State :=
  if s.sess.ps ≠ .validating ∨ s.parser.fsm.verdict = false then .ok (refuse s)
  else if s.parser.fsm = .err then .ok (raise .poll s.parser.errc s)
  else
    match decodeOp P s with
    | .error f => .error f
    | .ok s' =>
      if s'.tele.derr = .truncated then .ok (raise .poll .truncated s')
      else .ok { s' with sess := { s'.sess with pserr := .noError, ps := .done } }

/-- `PSPOLL` (R236). -/
def execPspoll (s : State) : Host.Outcome State Fault Refusal := .next (pollStart s)

/-- `PSCHECK p` (R238). -/
def execPscheck (p : Bool) (s : State) : Host.Outcome State Fault Refusal := .next (pollCheck Config.params p s)

/-- `PSVAL` (R239). -/
def execPsval (s : State) : Host.Outcome State Fault Refusal := finish (pollValidate Config.params s)

end Sys2Proof.Machine
end

