-- ==== Sys2Proof/Machine/Dispatch.lean ====
section
/-! DEFINITION. One arm per instruction. -/

namespace Sys2Proof.Machine

/-- The meaning of an instruction. -/
def exec (i : Instr) (s : State) : Host.Outcome State Fault Refusal :=
  match i with
  | .start => Sys2Proof.Machine.execStart s
  | .rxbyte b => Sys2Proof.Machine.execRxbyte b s
  | .rxend => Sys2Proof.Machine.execRxend s
  | .decst1 b => Sys2Proof.Machine.execDecst1 b s
  | .decst2 b => Sys2Proof.Machine.execDecst2 b s
  | .decwr1 b => Sys2Proof.Machine.execDecwr1 b s
  | .decwr2 b => Sys2Proof.Machine.execDecwr2 b s
  | .decft1 b => Sys2Proof.Machine.execDecft1 b s
  | .decft2 b => Sys2Proof.Machine.execDecft2 b s
  | .compose ip fp => Sys2Proof.Machine.execCompose ip fp s
  | .decode => Sys2Proof.Machine.execDecode s
  | .encpoll => Sys2Proof.Machine.execEncpoll s
  | .encclk year month day hour minute second => Sys2Proof.Machine.execEncclk year month day hour minute second s
  | .pspoll => Sys2Proof.Machine.execPspoll s
  | .pscheck p => Sys2Proof.Machine.execPscheck p s
  | .psval => Sys2Proof.Machine.execPsval s
  | .wireResp buf => Sys2Proof.Machine.execWireResp buf s
  | .wirePoll => Sys2Proof.Machine.execWirePoll s
  | .wireSetclk year month day hour minute second => Sys2Proof.Machine.execWireSetclk year month day hour minute second s

end Sys2Proof.Machine
end

