-- ==== Sys2Proof/Machine/Port.lean ====
section
/-! DEFINITION. The inputs of the block: a request that is no instruction (30_encoding.md R100, R103; 60_exceptions.md R268) and
the reset event (70_reset_and_hazards.md R290). -/

namespace Sys2Proof.Machine

/-- What a request that decodes to no instruction does. An undefined opcode is refused (R100, R268). A received buffer
without the magic is validated like any other, which gives `HeaderMismatch` (R103, R132). Outbound bytes of no
wire format have no meaning (R90, log 4). -/
def rejectRequest (e : Reject) (s : State) : Host.Outcome State Fault Refusal :=
  match e with
  | .undefinedOpcode _ => .next (refuse s)
  | .notMagic buf => finish (validateBuffer buf s)
  | .notOutbound _ => .refused .notOutbound

/-- The reset event: every register at once to its value of R44; the inputs still to come stay (R290, log 14). -/
def resetEvent (s : State) : State := State.afterReset (s.resets + 1) s.port

end Sys2Proof.Machine
end

