-- ==== Sys2Proof/Machine/Step.lean ====
section
/-! DEFINITION. One step: the next input is taken and handled; with none the block does nothing (00_scope.md R11,
70_reset_and_hazards.md R290, R291; log 1). -/

namespace Sys2Proof.Machine

/-- A request: the decoded instruction runs, or the request is rejected by name. -/
def handleRequest (r : Request) (s : State) : Host.Outcome State Fault Refusal :=
  match decode r with
  | .ok i => exec i s
  | .error e => rejectRequest e s

/-- One step of the block. -/
def step (s : State) : Host.Outcome State Fault Refusal :=
  match s.port with
  | [] => .next s
  | .reset :: rest => .next (resetEvent { s with port := rest })
  | .request r :: rest => handleRequest r { s with port := rest }

/-- The state with one request placed as the next input, its bits numbered as spec/opcode_table.json numbers them. -/
def State.withFetchWord (s : State) (nbits w : Nat) : State :=
  { s with port := .request (tableRequest nbits w) :: s.port }

end Sys2Proof.Machine
end

