-- ==== Sys2Proof/Safety.lean ====
section
/-! DEFINITION. The terms claims are stated in: sequences of instructions and the pseudo-operations (30_encoding.md R106),
frames, the operand bits a command word uses (R98), a decodable payload, and the invariants of the registers. -/

namespace Sys2Proof.Machine

/-- The instructions of a list run in order, up to the first stop. -/
def execAll : List Instr → State → Host.Outcome State Fault Refusal
  | [], s => .next s
  | i :: is, s =>
    match exec i s with
    | .next t => execAll is t
    | .fault f => .fault f
    | .refused r => .refused r

/-- `VALIDATE b0 … b(n−1)` (R106). -/
def validateOps (buf : List Byte) : List Instr := .start :: (buf.map .rxbyte ++ [.rxend])

/-- The end of a `POLLCYCLE` whose data have arrived (R106). -/
def pollDataOps (buf : List Byte) : List Instr := .pscheck true :: (buf.map .rxbyte ++ [.rxend, .psval])

/-- `POLLCYCLE`, with a transport that reports nothing at its first `silent` checks and then has `buf` (R106): `PSPOLL`, `PSCHECK 0`
while nothing is reported, and then either the session has failed, at check number `MAX_RETRIES + 1` (R238), and the expansion
ends there, or the data are handed over. -/
def pollCycleOps (P : Params) (silent : Nat) (buf : List Byte) : List Instr :=
  .pspoll :: (if P.maxRetries < silent then List.replicate (P.maxRetries + 1) (.pscheck false)
    else List.replicate silent (.pscheck false) ++ pollDataOps buf)

/-- Everything but the parser is as before. -/
def OnlyParser (s t : State) : Prop := t = { s with parser := t.parser }

/-- Everything but the flag registers is as before. -/
def OnlyFlags (s t : State) : Prop := t = { s with flg := t.flg }

/-- Everything but the composer registers is as before. -/
def OnlyComposer (s t : State) : Prop := t = { s with comp := t.comp }

/-- Everything but the flag and telemetry registers is as before. -/
def OnlyFlagsAndTelemetry (s t : State) : Prop := t = { s with flg := t.flg, tele := t.tele }

/-- Everything but the transmit buffer is as before. -/
def OnlyTransmit (s t : State) : Prop := t = { s with tx := t.tx }

/-- Everything but the session registers is as before. -/
def OnlySession (s t : State) : Prop := t = { s with sess := t.sess }

/-- The bits of a command word that a field of its operation takes, below `op` (R98). -/
def operandMask (op : Byte) : CmdWord :=
  if op = 0x02 ∨ op = 0x10 ∨ op = 0x11 ∨ op = 0x12 ∨ op = 0x13 ∨ op = 0x14 ∨ op = 0x15 then 0xFF
  else if op = 0x20 then 0xFFFFFFFF
  else if op = 0x41 then 0x00FFFFFFFFFFFFFF
  else if op = 0x51 then 1
  else 0

/-- The sixteen opcodes (R97). -/
def definedOps : List Byte :=
  [0x01, 0x02, 0x03, 0x10, 0x11, 0x12, 0x13, 0x14, 0x15, 0x20, 0x30, 0x40, 0x41, 0x50, 0x51, 0x52]

/-- A validated payload of at least 56 bytes is held, and `w` is its first 56 bytes (R62, R185). -/
def Decodable (s : State) (w : Window) : Prop :=
  s.parser.fsm = .ok ∧ minPayload ≤ s.parser.plen.toNat ∧ ∀ a : Fin 56, Mem.read s.parser.pay a.val = some (w a)

/-- The parser registers hold the payload `p` as their validated result, `Ok(p)` (R129). -/
def HoldsPayload (r : ParserRegs) (p : List Byte) : Prop :=
  r.fsm = .ok ∧ r.errc = .noError ∧ r.plen.toNat = p.length ∧ ∀ k, k < p.length → Mem.read r.pay k = p[k]?

/-- The parser registers hold the result `Err(e)` (R129). -/
def HoldsError (r : ParserRegs) (e : ErrCode) : Prop := r.fsm = .err ∧ r.errc = e

/-- The parser registers hold the result of `Validate(buf)` (R129, R130). -/
def HoldsVerdict (r : ParserRegs) (buf : List Byte) : Prop :=
  match validate buf with
  | .ok p => HoldsPayload r p ∧ buf[4]? = some r.lenr
  | .error e => HoldsError r e

/-- When an instruction is admitted; every other one is refused (R268). -/
def Admitted (i : Instr) (s : State) : Prop :=
  match i with
  | .decode => s.parser.fsm = .ok
  | .pspoll => s.sess.ps ≠ .await ∧ s.sess.ps ≠ .validating
  | .pscheck _ => s.sess.ps = .await
  | .psval => s.sess.ps = .validating ∧ (s.parser.fsm = .ok ∨ s.parser.fsm = .err)
  | .start => True
  | .rxbyte _ => True
  | .rxend => True
  | .decst1 _ => True
  | .decst2 _ => True
  | .decwr1 _ => True
  | .decwr2 _ => True
  | .decft1 _ => True
  | .decft2 _ => True
  | .compose _ _ => True
  | .encpoll => True
  | .encclk _ _ _ _ _ _ => True
  | .wireResp _ => True
  | .wirePoll => True
  | .wireSetclk _ _ _ _ _ _ => True

/-- The value of a part of one or two payload bytes, low byte first (R188). -/
def partValue (w : Window) : PartAt → Nat
  | .one a => (w a).toNat
  | .two a => (w a.castSucc).toNat + 256 * (w a.succ).toNat

/-- The number a string of decimal digits stands for. -/
def decimalValue (t : Text) : Nat := t.foldl (fun n c => n * 10 + (c.toNat - 48)) 0

/-- A composed triple's digit count is that of its fractional part (R33). -/
def Composed.Coherent (c : Composed) : Prop := c.d.toNat = ndigits c.f.toNat

/-- What holds of the parser registers between operations (R21 to R27). -/
structure ParserInv (p : ParserRegs) : Prop where
  /-- `PAY` is in canonical form, all offsets below 254. -/
  payWf : Mem.wf paySize p.pay = true
  /-- R26. -/
  errcIff : p.errc ≠ .noError ↔ p.fsm = .err
  /-- R26: `TimeoutError` never appears in `ERRC`. -/
  errcKind : p.errc ≠ .timeoutError
  /-- R25: `PLEN` is 0 but in `OK`. -/
  plenZero : p.fsm ≠ .ok → p.plen = 0
  /-- R22, R23, R24: nothing received before the length byte. -/
  header : p.fsm = .m0 ∨ p.fsm = .m1 ∨ p.fsm = .m2 ∨ p.fsm = .m3 ∨ p.fsm = .len → p.lenr = 0 ∧ p.cnt = 0 ∧ p.sum = 0
  /-- R22: no length after a header error. -/
  headerErr : p.errc = .headerMismatch → p.lenr = 0
  /-- R42: `CNT` stops at `LENR − 1`. -/
  payload : p.fsm = .payl → p.cnt.toNat + 1 < p.lenr.toNat
  checksum : p.fsm = .csum → p.cnt.toNat + 1 = p.lenr.toNat
  /-- R25, R129. -/
  valid : p.fsm = .ok → p.cnt.toNat + 1 = p.lenr.toNat ∧ p.plen = p.cnt
  /-- R23: `CNT` never exceeds 254. -/
  cntMax : p.cnt.toNat ≤ 254
  /-- R24, R27: `PAY[0 ..< CNT]` holds the payload bytes received, and `SUM` is their checksum. -/
  sumOf : ∃ bs : List Byte, bs.length = p.cnt.toNat ∧ (∀ k, k < bs.length → Mem.read p.pay k = bs[k]?) ∧ p.sum = sum8 bs

/-- What holds of the telemetry registers between operations (R33, R34, R38). -/
structure TeleInv (t : TeleRegs) : Prop where
  derrKind : t.derr = .noError ∨ t.derr = .truncated
  /-- R38. -/
  validNoError : t.tvalid = true → t.derr = .noError
  /-- R32: `N_TEMP_OTHER` other temperatures. -/
  temps : t.record.temp.length = nTempOther Config.params
  /-- R33, R34, R192, R194: a complete record is coherent. -/
  record : t.tvalid = true →
    t.record.cc.Coherent ∧ t.record.eday.Coherent ∧ t.record.etot.Coherent ∧ t.record.run.Coherent ∧
      t.record.cp = chargingPowerReg Config.params t.record.bv t.record.cc ∧
      (t.record.btempV = true → t.record.btemp ≠ 255)

/-- Bits that no table names are 0 in every flag register (R30). -/
def FlagsMasked (f : FlagRegs) : Prop := ∀ r : Role, f.get r &&& ~~~(maskOf Config.params r) = 0

/-- What holds of the transmit buffer between operations (R39). -/
structure TxInv (x : TxRegs) : Prop where
  txbWf : Mem.wf txbSize x.txb = true
  lenKind : x.txlen = 0 ∨ x.txlen = 11 ∨ x.txlen = 18
  written : ∀ k, k < x.txlen.toNat → (Mem.read x.txb k).isSome = true

/-- What holds of the session registers between operations (R40, R238). -/
structure SessInv (x : SessRegs) : Prop where
  errIff : x.pserr ≠ .noError ↔ x.ps = .failed
  retryMax : x.retry ≤ Config.params.maxRetries + 1
  awaiting : x.ps = .await → x.retry ≤ Config.params.maxRetries
  /-- R40: `RETRY` is a register of `W_RETRY` bits. -/
  retryFits : x.retry < 2 ^ wRetry Config.params

/-- The invariant of the block. The flag registers are masked whenever the telemetry is a complete record: before that
they may still hold what reset left (R44). -/
structure State.Inv (s : State) : Prop where
  parser : ParserInv s.parser
  tele : TeleInv s.tele
  flags : s.tele.tvalid = true → FlagsMasked s.flg
  tx : TxInv s.tx
  sess : SessInv s.sess

end Sys2Proof.Machine
end

