-- ==== Sys2Proof/Certificates/Slice0/Obligations.lean ====
section
/-! DEFINITION. The statements about the block, for the provers. -/

open Sys2Proof Sys2Proof.Machine

/-! ## The step, the port and reset -/

/-- When the next input is a request that decodes to `i`, the step is `exec i` on the state with that input taken. The
list of inputs is the model's (log 1); one command word causes exactly one operation (R96). -/
def Obligations.StepRunsDecodedInstruction : Prop :=
  ∀ (s : State) (r : Request) (rest : List Input) (i : Instr),
    s.port = .request r :: rest → decode r = .ok i → step s = exec i { s with port := rest }

/-- With no input left a step changes nothing (R291: after reset the block does nothing until the first command word).
That such a step is a next state is the model's choice (log 1). -/
def Obligations.IdleStepChangesNothing : Prop :=
  ∀ s : State, s.port = [] → step s = .next s

/-- What the state after reset holds where the spec gives the value (R44), and that no byte of `PAY` or `TXB` has a value
(the model's choice of R44's two, log 6). -/
def Obligations.ResetHoldsSpecValues : Prop :=
  State.reset.parser.fsm = .m0 ∧ State.reset.parser.lenr = 0 ∧ State.reset.parser.cnt = 0 ∧
    State.reset.parser.sum = 0 ∧ State.reset.parser.plen = 0 ∧ State.reset.parser.errc = .noError ∧
    State.reset.cmderr = false ∧ State.reset.tele.tvalid = false ∧ State.reset.tele.derr = .noError ∧
    State.reset.tx.txlen = 0 ∧ State.reset.sess.ps = .idle ∧ State.reset.sess.pserr = .noError ∧
    State.reset.sess.retry = 0 ∧ State.reset.status = 0 ∧
    ∀ a, Mem.read State.reset.parser.pay a = none ∧ Mem.read State.reset.tx.txb a = none

/-- The reset event, from any state, leaves every register that R44 gives a value at that value (R290), `PAY` and `TXB`
unwritten, and the inputs that follow in place (log 14). -/
def Obligations.ResetEventRestoresSpecValues : Prop :=
  ∀ (s : State) (rest : List Input), s.port = .reset :: rest →
    ∃ t, step s = .next t ∧ t.parser.fsm = .m0 ∧ t.parser.lenr = 0 ∧ t.parser.cnt = 0 ∧ t.parser.sum = 0 ∧
      t.parser.plen = 0 ∧ t.parser.errc = .noError ∧ t.cmderr = false ∧ t.tele.tvalid = false ∧
      t.tele.derr = .noError ∧ t.tx.txlen = 0 ∧ t.sess.ps = .idle ∧ t.sess.pserr = .noError ∧ t.sess.retry = 0 ∧
      t.status = 0 ∧ t.port = rest ∧ ∀ a, Mem.read t.parser.pay a = none ∧ Mem.read t.tx.txb a = none

/-- R100: a command word whose `op` is none of the sixteen sets `CMDERR` and changes no other register. -/
def Obligations.UndefinedOpcodesAreRefused : Prop :=
  ∀ (s : State) (w : CmdWord) (rest : List Input),
    s.port = .request (.cmd w) :: rest → opOf w ∉ definedOps → step s = .next { s with cmderr := true, port := rest }

/-- R103: a received buffer of any bytes is no undefined behaviour: with the parser able to run, a step on it answers a
next state whose parser holds `Validate`'s result; only the parser and the list of inputs change. That a whole buffer is one
step is the model's (log 2). -/
def Obligations.EveryReceivedBufferGetsItsVerdict : Prop :=
  ∀ (s : State) (buf : List Byte) (rest : List Input), s.port = .request (.rx buf) :: rest →
    ∃ t, step s = .next t ∧ HoldsVerdict t.parser buf ∧ t = { s with parser := t.parser, port := rest }

/-! ## Encodings -/

/-- Every well-formed instruction is read back from its own words, with every operand at every value. -/
def Obligations.DecodeOfEncodeIsIdentity : Prop :=
  ∀ i : Instr, i.wf = true → decode (encode i) = .ok i

/-- A command word that decodes is, on its opcode and the bits its fields take, exactly the word of its instruction; the
other bits are written as 0 (R96 to R98, R101). -/
def Obligations.DecodedWordIsEncodedOnUsedBits : Prop :=
  ∀ (w : CmdWord) (i : Instr), decode (.cmd w) = .ok i →
    encode i = .cmd (w &&& (0xFF00000000000000 ||| operandMask (opOf w)))

/-- R101: the bits of `arg` that R98 does not assign to the opcode do not affect the operation. -/
def Obligations.ReservedOperandBitsAreIgnored : Prop :=
  ∀ w w' : CmdWord, opOf w = opOf w' → w &&& operandMask (opOf w) = w' &&& operandMask (opOf w) →
    decode (.cmd w) = decode (.cmd w')

/-- Words of the spec's own programs P1 to P6 and vector X4 decode to the operations they stand beside. -/
def Obligations.SpecWordsDecode : Prop :=
  decode (.cmd 0x01FFFFFFFFFFFFFF) = .ok .start ∧
    decode (.cmd 0x020000000000004D) = .ok (.rxbyte 0x4D) ∧
    decode (.cmd 0x0300000000000000) = .ok .rxend ∧
    decode (.cmd 0x100000000000000B) = .ok (.decst1 0x0B) ∧
    decode (.cmd 0x2000000000050046) = .ok (.compose 5 70) ∧
    decode (.cmd 0x3000000000000000) = .ok .decode ∧
    decode (.cmd 0x4107E8030F09051E) = .ok (.encclk 2024 3 15 9 5 30) ∧
    decode (.cmd 0x5100000000000001) = .ok (.pscheck true)

/-! ## The frame parser -/

/-- R121: `START` makes the parser fresh; `PAY` keeps its bytes and no other register is written. -/
def Obligations.StartMakesParserFresh : Prop :=
  ∀ s : State, ∃ t, exec .start s = .next t ∧ OnlyParser s t ∧
    t.parser.fsm = .m0 ∧ t.parser.lenr = 0 ∧ t.parser.cnt = 0 ∧ t.parser.sum = 0 ∧ t.parser.plen = 0 ∧
    t.parser.errc = .noError ∧ t.parser.pay = s.parser.pay

/-- R122: what `RXBYTE b` does in each parser state: it answers a next state, in which nothing but the parser has
changed, and every byte of `PAY` but the one at the old `CNT` in `PAYL` reads as before. The hypothesis says that in `PAYL` a
`PAY` offset is left and that in `CSUM` the length is not 0, which every reachable state meets (R63; ParserInv). -/
def Obligations.RxbyteFollowsParserState : Prop :=
  ∀ (b : Byte) (s : State), (s.parser.fsm = .payl → s.parser.cnt.toNat ≤ 253) →
    (s.parser.fsm = .csum → s.parser.lenr ≠ 0) →
    ∃ t, exec (.rxbyte b) s = .next t ∧ OnlyParser s t ∧
      match s.parser.fsm with
      | .m0 => t.parser = if b = 0x4D then { s.parser with fsm := .m1 }
          else { s.parser with errc := .headerMismatch, fsm := .err }
      | .m1 => t.parser = if b = 0x56 then { s.parser with fsm := .m2 }
          else { s.parser with errc := .headerMismatch, fsm := .err }
      | .m2 => t.parser = if b = 0x4D then { s.parser with fsm := .m3 }
          else { s.parser with errc := .headerMismatch, fsm := .err }
      | .m3 => t.parser = if b = 0x50 then { s.parser with fsm := .len }
          else { s.parser with errc := .headerMismatch, fsm := .err }
      | .len => t.parser.lenr = b ∧ t.parser.cnt = 0 ∧ t.parser.sum = 0 ∧ t.parser.plen = s.parser.plen ∧
          t.parser.pay = s.parser.pay ∧
          (if b = 0 then t.parser.fsm = .err ∧ t.parser.errc = .truncated
           else t.parser.errc = s.parser.errc ∧ t.parser.fsm = if b = 1 then .csum else .payl)
      | .payl => t.parser.cnt.toNat = s.parser.cnt.toNat + 1 ∧
          t.parser.sum.toNat = (s.parser.sum.toNat + b.toNat) % 256 ∧
          (∀ a, Mem.read t.parser.pay a = if a = s.parser.cnt.toNat then some b else Mem.read s.parser.pay a) ∧
          t.parser.lenr = s.parser.lenr ∧ t.parser.plen = s.parser.plen ∧ t.parser.errc = s.parser.errc ∧
          t.parser.fsm = if s.parser.cnt.toNat + 1 + 1 = s.parser.lenr.toNat then .csum else .payl
      | .csum => if b = s.parser.sum
          then t.parser = { s.parser with plen := t.parser.plen, fsm := .ok } ∧
            t.parser.plen.toNat = s.parser.lenr.toNat - 1
          else t.parser = { s.parser with errc := .checksumMismatch, fsm := .err }
      | .ok => t = s
      | .err => t = s

/-- Where `CNT` is past the last offset of `PAY`, `RXBYTE` stops by name: there is no such byte (R63). Only states no run
reaches are meant, and the stop is the model's choice (log 12). -/
def Obligations.RxbytePastPayStops : Prop :=
  ∀ (b : Byte) (s : State), s.parser.fsm = .payl → 254 ≤ s.parser.cnt.toNat → exec (.rxbyte b) s = .fault .payAddress

/-- R128: `RXEND` by parser state. -/
def Obligations.RxendDecidesShortBuffers : Prop :=
  ∀ s : State, ∃ t, exec .rxend s = .next t ∧ OnlyParser s t ∧
    t.parser = match s.parser.fsm with
      | .m0 => { s.parser with errc := .headerMismatch, fsm := .err }
      | .m1 => { s.parser with errc := .headerMismatch, fsm := .err }
      | .m2 => { s.parser with errc := .headerMismatch, fsm := .err }
      | .m3 => { s.parser with errc := .headerMismatch, fsm := .err }
      | .len => { s.parser with errc := .truncated, fsm := .err }
      | .payl => { s.parser with errc := .truncated, fsm := .err }
      | .csum => { s.parser with errc := .truncated, fsm := .err }
      | .ok => s.parser
      | .err => s.parser

/-- R129: a result once reached is final: of all operations only `START`, `PSCHECK 1` and a new received buffer change the
parser's registers then. The received buffer as one instruction is the model's (log 2). -/
def Obligations.VerdictIsFinal : Prop :=
  ∀ (i : Instr) (s t : State), s.parser.fsm.verdict = true → exec i s = .next t →
    i ≠ .start → i ≠ .pscheck true → (∀ buf, i ≠ .wireResp buf) → t.parser = s.parser

/-- R130: the streaming operations agree with the function `Validate`, for every buffer and from every state. -/
def Obligations.StreamingAgreesWithValidate : Prop :=
  ∀ (buf : List Byte) (s : State),
    ∃ t, execAll (validateOps buf) s = .next t ∧ HoldsVerdict t.parser buf ∧ OnlyParser s t

/-- A received buffer is the pseudo-operation `VALIDATE` of it: its next state is that of the operations in turn, and its
parser holds `Validate`'s result (R91, R106; the meaning of the wire row is the model's, log 2). -/
def Obligations.WireRespIsValidate : Prop :=
  ∀ (buf : List Byte) (s : State),
    ∃ t, exec (.wireResp buf) s = .next t ∧ execAll (validateOps buf) s = .next t ∧ HoldsVerdict t.parser buf ∧
      OnlyParser s t

/-- R131: a frame built from a payload of at most 254 bytes validates, and with any single bit of the payload flipped it
fails with `ChecksumMismatch`. -/
def Obligations.ChecksumRoundTripAndBitFlip : Prop :=
  ∀ p : List Byte, p.length ≤ 254 →
    validate (frameOf p) = .ok p ∧
      ∀ (k j : Nat) (hk : k < p.length), j < 8 →
        validate ((frameOf p).set (5 + k) (p[k] ^^^ BitVec.ofNat 8 (2 ^ j))) = .error .checksumMismatch

/-- R132: whatever else a buffer holds, without the magic it fails with `HeaderMismatch`. -/
def Obligations.HeaderGate : Prop :=
  ∀ (buf : List Byte) (s : State), buf.take 4 ≠ [0x4D, 0x56, 0x4D, 0x50] →
    ∃ t, execAll (validateOps buf) s = .next t ∧ HoldsError t.parser .headerMismatch ∧ OnlyParser s t

/-- R133: with the magic there, a buffer of exactly 4 bytes or of fewer than `5 + L` fails with `Truncated`. -/
def Obligations.ShortBufferIsTruncated : Prop :=
  ∀ (buf : List Byte) (s : State), buf.take 4 = [0x4D, 0x56, 0x4D, 0x50] →
    (buf.length = 4 ∨ ∃ l : Byte, buf[4]? = some l ∧ buf.length < 5 + l.toNat) →
    ∃ t, execAll (validateOps buf) s = .next t ∧ HoldsError t.parser .truncated ∧ OnlyParser s t

/-- R134: a buffer longer than `5 + L` bytes validates exactly as its first `5 + L` bytes do. -/
def Obligations.TrailingBytesAreIgnored : Prop :=
  ∀ (buf extra : List Byte) (l : Byte), buf[4]? = some l → buf.length = 5 + l.toNat →
    validate (buf ++ extra) = validate buf

/-- R135(a): a payload with its bytes in another order, under the old checksum, still validates. -/
def Obligations.ReorderedPayloadStillValidates : Prop :=
  ∀ p q : List Byte, p.Perm q → p.length ≤ 254 →
    validate (magic ++ BitVec.ofNat 8 (p.length + 1) :: q ++ [sum8 p]) = .ok q

/-! ## The bit decoder -/

/-- R157, R158: `DECST1` and `DECST2` write the masked byte to their own register and nothing else; the named flags are its
bits. -/
def Obligations.StatusDecodersStoreMaskedByte : Prop :=
  ∀ (b : Byte) (s : State),
    (∃ t, exec (.decst1 b) s = .next t ∧ t = { s with flg := { s.flg with st1 := b &&& 0x0F } } ∧
      t.flg.status = { s.flg.status with chargingTempLimit := b.getLsbD 3, batteryVoltageFull := b.getLsbD 2,
                                         chargingStatus := b.getLsbD 1, dcOutputStatus := b.getLsbD 0 }) ∧
    (∃ t, exec (.decst2 b) s = .next t ∧ t = { s with flg := { s.flg with st2 := b &&& 0x03 } } ∧
      t.flg.status = { s.flg.status with alarmStatus := b.getLsbD 1, faultStatus := b.getLsbD 0 })

/-- R159 to R162: the warning and fault decoders write the masked byte to their own register and nothing else; the flags are
its bits at their positions. -/
def Obligations.WarningAndFaultDecodersStoreMaskedByte : Prop :=
  ∀ (b : Byte) (s : State),
    (∃ t, exec (.decwr1 b) s = .next t ∧ t = { s with flg := { s.flg with wr1 := b } } ∧
      (t.flg.warning Config.params).warn1 = lanes b) ∧
    (∃ t, exec (.decwr2 b) s = .next t ∧ t = { s with flg := { s.flg with wr2 := b &&& maskWr2 Config.params } } ∧
      (t.flg.warning Config.params).warn2 = lanes t.flg.wr2 ∧
      ∀ i, t.flg.wr2.getLsbD i = ((maskWr2 Config.params).getLsbD i && b.getLsbD i)) ∧
    (∃ t, exec (.decft1 b) s = .next t ∧ t = { s with flg := { s.flg with ft1 := b } } ∧
      (t.flg.fault Config.params).fault1 = lanes b) ∧
    (∃ t, exec (.decft2 b) s = .next t ∧ t = { s with flg := { s.flg with ft2 := b &&& maskFt2 Config.params } } ∧
      (t.flg.fault Config.params).fault2 = lanes t.flg.ft2 ∧
      (t.flg.fault Config.params).batteryVoltageInputError = (t.flg.ft2 != 0) ∧
      (t.flg.fault Config.params).batteryVoltageInputError = b.getLsbD Config.params.ft2Bit.val)

/-- R150, R151 to R156: the register of a role agrees with `decodeBits` over the role's table: each named flag is its bit, and a
bit that no pair of the table names is 0. -/
def Obligations.FlagRegistersAgreeWithTables : Prop :=
  ∀ (P : Params) (r : Role) (b : Byte),
    (∀ e ∈ decodeBits b (tableOf P r), ∃ k, (e.1, k) ∈ tableOf P r ∧ (maskedFlags P r b).getLsbD k = e.2) ∧
    ∀ k, (∀ name, (name, k) ∉ tableOf P r) → (maskedFlags P r b).getLsbD k = false

/-- R153 to R156: how many bits each mask names, and that every byte with five bits set can be `MASK_WR2`. -/
def Obligations.MasksHaveTheirBitCounts : Prop :=
  ∀ P : Params, popcount (maskOf P .st1) = 4 ∧ popcount (maskOf P .st2) = 2 ∧ popcount (maskOf P .wr1) = 8 ∧
    popcount (maskOf P .wr2) = 5 ∧ popcount (maskOf P .ft1) = 8 ∧ popcount (maskOf P .ft2) = 1 ∧
    ∀ m : Byte, popcount m = 5 → maskOf { P with wr2 := m } .wr2 = m

/-! ## Decimal text and the composer -/

/-- R15: `dec(n)` is decimal digits that stand for `n`, without leading zeros but for 0 itself, and `pad(n, w)` is `dec(n)` behind
as many zeros as reach `w` characters, nothing cut. -/
def Obligations.DecimalTextStandsForItsNumber : Prop :=
  ∀ n w : Nat, decimalValue (dec n) = n ∧ (∀ c ∈ dec n, '0' ≤ c ∧ c ≤ '9') ∧ (n ≠ 0 → (dec n).head? ≠ some '0') ∧
    dec 0 = ['0'] ∧ ndigits n = (dec n).length ∧ (∃ z, pad n w = List.replicate z '0' ++ dec n) ∧
    (pad n w).length = max w (dec n).length

/-- R171: `COMPOSE i, f` writes the four composer registers, the digit count by its thresholds and the mantissa without
overflow, and nothing else; the exact decimal they stand for has the text of the two parts joined by the point. -/
def Obligations.ComposeStoresExactDecimal : Prop :=
  ∀ (i f : Half) (s : State), ∃ t, exec (.compose i f) s = .next t ∧ OnlyComposer s t ∧
    t.comp.ci = i ∧ t.comp.cf = f ∧
    t.comp.cd.toNat = (if f.toNat ≤ 9 then 1 else if f.toNat ≤ 99 then 2 else if f.toNat ≤ 999 then 3
      else if f.toNat ≤ 9999 then 4 else 5) ∧
    t.comp.cm.toNat = i.toNat * 10 ^ t.comp.cd.toNat + f.toNat ∧
    t.comp.exact.text = dec i.toNat ++ '.' :: dec f.toNat

/-- R170: `compose` of two naturals is the exact decimal with as many digits after the point as the second has, and its text is
the two parts' digits joined by the point. -/
def Obligations.ComposedTextIsDigitConcatenation : Prop :=
  ∀ i f : Nat, compose i f = ⟨i * 10 ^ ndigits f + f, ndigits f⟩ ∧ (compose i f).text = dec i ++ '.' :: dec f

/-- R174: two compositions have the same representation exactly when both parts are equal; 5 and 7 against 5 and 70 are
numerically equal and differ. -/
def Obligations.RepresentationKeepsBothParts : Prop :=
  (∀ i f j g : Nat, compose i f = compose j g ↔ i = j ∧ f = g) ∧
    (compose 5 7).numEq (compose 5 70) = true ∧ compose 5 7 ≠ compose 5 70

/-! ## The telemetry decoder -/

/-- R186, R268: `DECODE` without a validated frame is refused: `CMDERR` and nothing else. -/
def Obligations.DecodeWithoutFrameIsRefused : Prop :=
  ∀ s : State, s.parser.fsm ≠ .ok → exec .decode s = .next { s with cmderr := true }

/-- R186: a validated payload of fewer than 56 bytes gives `DERR` Truncated and `TVALID` 0; the record and `FLG` keep their
contents. -/
def Obligations.DecodeOfShortPayloadIsTruncated : Prop :=
  ∀ s : State, s.parser.fsm = .ok → s.parser.plen.toNat < 56 →
    exec .decode s = .next { s with tele := { s.tele with derr := .truncated, tvalid := false } }

/-- R186, R203: a decodable payload completes: `DERR` NONE, `TVALID` 1, the six flag registers from their payload bytes, and
nothing changes but the flags and the telemetry. -/
def Obligations.DecodeStoresFlagsAndFrame : Prop :=
  ∀ (s : State) (w : Window), Decodable s w → ∃ t, exec .decode s = .next t ∧ OnlyFlagsAndTelemetry s t ∧
    t.tele.tvalid = true ∧ t.tele.derr = .noError ∧
    t.flg = { st1 := w Config.params.layout.st1 &&& 0x0F, st2 := w Config.params.layout.st2 &&& 0x03,
              wr1 := w Config.params.layout.wr1, wr2 := w Config.params.layout.wr2 &&& maskWr2 Config.params,
              ft1 := w Config.params.layout.ft1, ft2 := w Config.params.layout.ft2 &&& maskFt2 Config.params }

/-- R189, R190, R193, R194, R198, R201, R202: the scalar registers of a decoded payload, 16-bit fields low byte first, what
the voltages and the version stand for, and the battery temperature's sentinel. What a stale `T_BTEMP` holds is the model's (log 11) and not stated. -/
def Obligations.DecodeStoresScalars : Prop :=
  ∀ (s : State) (w : Window), Decodable s w → ∃ t, exec .decode s = .next t ∧
    t.tele.record.pv.toNat =
      (w Config.params.layout.pv.castSucc).toNat + 256 * (w Config.params.layout.pv.succ).toNat ∧
    t.tele.record.bv.toNat =
      (w Config.params.layout.bv.castSucc).toNat + 256 * (w Config.params.layout.bv.succ).toNat ∧
    t.tele.record.year.toNat =
      (w Config.params.layout.year.castSucc).toNat + 256 * (w Config.params.layout.year.succ).toNat ∧
    t.tele.record.bcap = w Config.params.layout.bcap ∧ t.tele.record.bcells = w Config.params.layout.bcells ∧
    t.tele.record.btype = w Config.params.layout.btype ∧
    t.tele.record.batteryTemperature =
      (if w Config.params.layout.btemp = 255 then none else some (w Config.params.layout.btemp).toNat) ∧
    t.tele.record.temp = (Config.params.layout.temp0 :: Config.params.layout.tempMore).map w ∧
    t.tele.record.mon = w Config.params.layout.mon ∧ t.tele.record.day = w Config.params.layout.day ∧
    t.tele.record.hour = w Config.params.layout.hour ∧ t.tele.record.min = w Config.params.layout.min ∧
    t.tele.record.sec = w Config.params.layout.sec ∧ t.tele.record.wday = w Config.params.layout.wday ∧
    t.tele.record.vmaj = w Config.params.layout.vmaj ∧ t.tele.record.vmin = w Config.params.layout.vmin ∧
    t.tele.record.mtype = w Config.params.layout.mtype ∧
    t.tele.record.pvInputVoltage = t.tele.record.pv.toNat ∧ t.tele.record.batteryVoltage = ⟨t.tele.record.bv.toNat, 1⟩ ∧
    t.tele.record.versionText = dec t.tele.record.vmaj.toNat ++ '.' :: dec t.tele.record.vmin.toNat

/-- R191, R195, R196: the composed fields hold their two parts and stand for their composition; and the nine
stored-configuration registers hold their raw value (of R200 the registers, not the scales). -/
def Obligations.DecodeStoresComposedAndConfig : Prop :=
  ∀ (s : State) (w : Window), Decodable s w → ∃ t, exec .decode s = .next t ∧
    (∀ e ∈ [(t.tele.record.cc, Config.params.layout.ccI, Config.params.layout.ccF),
            (t.tele.record.eday, Config.params.layout.edayI, Config.params.layout.edayF),
            (t.tele.record.etot, Config.params.layout.etotI, Config.params.layout.etotF),
            (t.tele.record.run, Config.params.layout.runI, Config.params.layout.runF)],
      e.1.i.toNat = partValue w e.2.1 ∧ e.1.f.toNat = partValue w e.2.2 ∧
        e.1.exact = compose (partValue w e.2.1) (partValue w e.2.2)) ∧
    (∀ e ∈ [(t.tele.record.sBtype, Config.params.layout.cfgBtype), (t.tele.record.sSysv, Config.params.layout.cfgSysv),
            (t.tele.record.sChgpct, Config.params.layout.cfgChgpct), (t.tele.record.sLowv, Config.params.layout.cfgLowv),
            (t.tele.record.sStrongv, Config.params.layout.cfgStrongv),
            (t.tele.record.sFloatv, Config.params.layout.cfgFloatv),
            (t.tele.record.sDcout, Config.params.layout.cfgDcout), (t.tele.record.sOnoff, Config.params.layout.cfgOnoff),
            (t.tele.record.sRecovv, Config.params.layout.cfgRecovv)],
      e.1.toNat = partValue w e.2.part)

/-- R192, R197: the charging power is the exact product `T_BV / 10 × T_CC` in thousandths, rounded to a nearest integer; with
one or two fractional digits it is the product exactly; and at an exact tie it is either neighbour, whatever `ROUND3_TIE`. The
statement is scaled by `10^(D+1)`, so that every term is a natural number. -/
def Obligations.ChargingPowerIsNearest : Prop :=
  ∀ (tieUp : Nat → Nat → Nat → Nat → Bool) (v i f : Nat),
    let d := ndigits f
    let exact := v * (i * 10 ^ d + f) * 1000
    let got := round3 tieUp v i f d * 10 ^ (d + 1)
    2 * got ≤ 2 * exact + 10 ^ (d + 1) ∧ 2 * exact ≤ 2 * got + 10 ^ (d + 1) ∧ (d ≤ 2 → got = exact)

/-- R34, R192: after a successful `DECODE` the register `T_CP` holds `Round3` of the new `T_BV` and `T_CC`, which fits its 40
bits, below `2^39`. -/
def Obligations.ChargingPowerFitsItsRegister : Prop :=
  ∀ (s : State) (w : Window), Decodable s w → ∃ t, exec .decode s = .next t ∧
    t.tele.record.cp.toNat = round3 Config.params.tieUp t.tele.record.bv.toNat t.tele.record.cc.i.toNat
      t.tele.record.cc.f.toNat (ndigits t.tele.record.cc.f.toNat) ∧
    t.tele.record.cp.toNat < 2 ^ 39

/-- R186 (corner case): `DECODE` twice on the same frame gives the same registers both times. For a tie this rests on
the draw being a function of the operands (log 9). -/
def Obligations.DecodeTwiceIsDecodeOnce : Prop :=
  ∀ s t : State, exec .decode s = .next t → exec .decode t = .next t

/-- R206: what a successful `DECODE` writes depends on the 56 payload bytes and the parameters alone; a stale `T_BTEMP` is not
written. -/
def Obligations.DecodeDependsOnPayloadOnly : Prop :=
  ∀ (s s' : State) (w : Window), Decodable s w → Decodable s' w →
    ∃ t t', exec .decode s = .next t ∧ exec .decode s' = .next t' ∧ t.flg = t'.flg ∧
      t.tele.tvalid = t'.tele.tvalid ∧ t.tele.derr = t'.tele.derr ∧
      { t.tele.record with btemp := 0 } = { t'.tele.record with btemp := 0 } ∧
      (t.tele.record.btempV = true → t.tele.record.btemp = t'.tele.record.btemp)

/-- R199: the text of the timestamp; each field takes its padded width or, where it has more digits, all of them; with a year of at
most four digits and byte fields of at most two the timestamp has exactly 19 characters. -/
def Obligations.TimestampLength : Prop :=
  ∀ t : Telemetry,
    t.timestamp = pad t.year.toNat 4 ++ ['-'] ++ pad t.mon.toNat 2 ++ ['-'] ++ pad t.day.toNat 2 ++ [' '] ++
      pad t.hour.toNat 2 ++ [':'] ++ pad t.min.toNat 2 ++ [':'] ++ pad t.sec.toNat 2 ∧
    t.timestamp.length = max 4 (ndigits t.year.toNat) + max 2 (ndigits t.mon.toNat) + max 2 (ndigits t.day.toNat) +
      max 2 (ndigits t.hour.toNat) + max 2 (ndigits t.min.toNat) + max 2 (ndigits t.sec.toNat) + 5 ∧
    (t.year.toNat ≤ 9999 → t.mon.toNat ≤ 99 → t.day.toNat ≤ 99 → t.hour.toNat ≤ 99 → t.min.toNat ≤ 99 →
      t.sec.toNat ≤ 99 → t.timestamp.length = 19)

/-! ## The command encoder -/

/-- R220: `ENCPOLL` writes the eleven bytes of the poll literal at `TXB[0 ..< 11]`, `TXLEN` 11, and nothing else; every byte
from offset 11 reads as before. -/
def Obligations.PollCommandIsBuilt : Prop :=
  ∀ s : State, ∃ t, exec .encpoll s = .next t ∧ OnlyTransmit s t ∧ t.tx.txlen = 11 ∧
    (∀ k, k < 11 → Mem.read t.tx.txb k =
      ([0x43, 0x4D, 0x48, 0x42, 0x06, 0x4D, 0x50, 0x50, 0x54, 0x48, 0x42] : List Byte)[k]?) ∧
    ∀ k, 11 ≤ k → Mem.read t.tx.txb k = Mem.read s.tx.txb k

/-- R222: `ENCCLK` writes the preamble, the year high byte first and the five bytes, `TXLEN` 18, and nothing else; no byte
outside `TXB[0 ..< 18]` changes. -/
def Obligations.ClockCommandIsBuilt : Prop :=
  ∀ (s : State) (year : Half) (month day hour minute second : Byte),
    ∃ t, exec (.encclk year month day hour minute second) s = .next t ∧ OnlyTransmit s t ∧ t.tx.txlen = 18 ∧
      (∀ k : Fin 11, Mem.read t.tx.txb k.val = some Config.params.preamble[k]) ∧
      (∃ yh yl : Byte, Mem.read t.tx.txb 11 = some yh ∧ Mem.read t.tx.txb 12 = some yl ∧
        yh.toNat = year.toNat / 256 ∧ yl.toNat = year.toNat % 256) ∧
      Mem.read t.tx.txb 13 = some month ∧ Mem.read t.tx.txb 14 = some day ∧ Mem.read t.tx.txb 15 = some hour ∧
      Mem.read t.tx.txb 16 = some minute ∧ Mem.read t.tx.txb 17 = some second ∧
      ∀ k, 18 ≤ k → Mem.read t.tx.txb k = Mem.read s.tx.txb k

/-- The outbound wire units are produced: `WIRE_POLL` answers the next state of `ENCPOLL`, and `WIRE_SETCLK` that of `ENCCLK` with
the same fields. That producing a unit is its row's meaning is the model's choice (log 2). -/
def Obligations.OutboundWireUnitsAreProduced : Prop :=
  ∀ (s : State) (year : Half) (month day hour minute second : Byte),
    (∃ t, exec .wirePoll s = .next t ∧ exec .encpoll s = .next t) ∧
    ∃ t, exec (.wireSetclk year month day hour minute second) s = .next t ∧
      exec (.encclk year month day hour minute second) s = .next t

/-! ## The poll session -/

/-- R236: `PSPOLL` is refused in an active session; otherwise it builds the poll command and waits, and touches neither the
parser nor the telemetry. -/
def Obligations.PspollStartsASession : Prop :=
  ∀ s : State,
    (s.sess.ps = .await ∨ s.sess.ps = .validating → exec .pspoll s = .next { s with cmderr := true }) ∧
    (s.sess.ps = .idle ∨ s.sess.ps = .done ∨ s.sess.ps = .failed →
      ∃ t, exec .pspoll s = .next t ∧ t = { s with tx := t.tx, sess := { ps := .await, pserr := .noError, retry := 0 } } ∧
        t.tx.txlen = 11 ∧
        (∀ k, k < 11 → Mem.read t.tx.txb k =
          ([0x43, 0x4D, 0x48, 0x42, 0x06, 0x4D, 0x50, 0x50, 0x54, 0x48, 0x42] : List Byte)[k]?) ∧
        ∀ k, 11 ≤ k → Mem.read t.tx.txb k = Mem.read s.tx.txb k)

/-- R238: `PSCHECK p` by session state, pending indicator and count of failed checks. -/
def Obligations.PscheckCountsOrValidates : Prop :=
  ∀ s : State,
    (∀ p, s.sess.ps ≠ .await → exec (.pscheck p) s = .next { s with cmderr := true }) ∧
    (s.sess.ps = .await →
      exec (.pscheck true) s = .next { s with
        parser := { s.parser with fsm := .m0, lenr := 0, cnt := 0, sum := 0, plen := 0, errc := .noError }
        sess := { s.sess with ps := .validating } }) ∧
    (s.sess.ps = .await →
      exec (.pscheck false) s = .next { s with
        sess := if Config.params.maxRetries < s.sess.retry + 1
          then { ps := .failed, pserr := .timeoutError, retry := s.sess.retry + 1 }
          else { s.sess with retry := s.sess.retry + 1 } })

/-- R239: `PSVAL` refused, failed by the parser's error, failed by a short payload, or done with the telemetry of `DECODE`. -/
def Obligations.PsvalJudgesTheFrame : Prop :=
  ∀ s : State,
    (s.sess.ps ≠ .validating ∨ (s.parser.fsm ≠ .ok ∧ s.parser.fsm ≠ .err) →
      exec .psval s = .next { s with cmderr := true }) ∧
    (s.sess.ps = .validating → s.parser.fsm = .err →
      exec .psval s = .next { s with sess := { s.sess with ps := .failed, pserr := s.parser.errc } }) ∧
    (s.sess.ps = .validating → s.parser.fsm = .ok → s.parser.plen.toNat < 56 →
      exec .psval s = .next { s with
        tele := { s.tele with derr := .truncated, tvalid := false }
        sess := { s.sess with ps := .failed, pserr := .truncated } }) ∧
    (∀ w, s.sess.ps = .validating → Decodable s w →
      ∃ u, exec .decode s = .next u ∧
        exec .psval s = .next { u with sess := { s.sess with ps := .done, pserr := .noError } })

/-- R244: every change of `PS` by an instruction is one of the table's: `PSPOLL` to `AWAIT` from a state without a session,
`PSCHECK` from `AWAIT` and `PSVAL` from `VALIDATING`. -/
def Obligations.SessionTransitions : Prop :=
  ∀ (i : Instr) (s t : State), exec i s = .next t → t.sess.ps ≠ s.sess.ps →
    (i = .pspoll ∧ (s.sess.ps = .idle ∨ s.sess.ps = .done ∨ s.sess.ps = .failed) ∧ t.sess.ps = .await) ∨
    (i = .pscheck false ∧ s.sess.ps = .await ∧ t.sess.ps = .failed ∧ t.sess.pserr = .timeoutError) ∨
    (i = .pscheck true ∧ s.sess.ps = .await ∧ t.sess.ps = .validating) ∨
    (i = .psval ∧ s.sess.ps = .validating ∧ (t.sess.ps = .done ∨ t.sess.ps = .failed))

/-- R306, R238: a session that waits cannot wait for ever: with the failed checks that `MAX_RETRIES` still allows, and one
more, it has failed with `TimeoutError`, and nothing but the session has changed. -/
def Obligations.WaitingIsBounded : Prop :=
  ∀ s : State, s.sess.ps = .await → s.sess.retry ≤ Config.params.maxRetries →
    execAll (List.replicate (Config.params.maxRetries + 1 - s.sess.retry) (.pscheck false)) s =
      .next { s with sess := { ps := .failed, pserr := .timeoutError, retry := Config.params.maxRetries + 1 } }

/-- R106, R238, R239, R306: a whole poll cycle, for any number of checks at which the transport is silent and any buffer: it ends in
`FAILED` with `TimeoutError` when they exceed `MAX_RETRIES`, the telemetry untouched; and otherwise in `DONE` with a valid record,
or in `FAILED` with the error of `Validate`, or with `Truncated` for a payload under 56 bytes. -/
def Obligations.PollCycleEndsByValidate : Prop :=
  ∀ (s : State) (silent : Nat) (buf : List Byte),
    s.sess.ps = .idle ∨ s.sess.ps = .done ∨ s.sess.ps = .failed →
    ∃ t, execAll (pollCycleOps Config.params silent buf) s = .next t ∧ t.cmderr = s.cmderr ∧
      if Config.params.maxRetries < silent then
        t.sess = { ps := .failed, pserr := .timeoutError, retry := Config.params.maxRetries + 1 } ∧ t.tele = s.tele ∧
          t.parser = s.parser
      else
        t.sess.retry = silent ∧
        match validate buf with
        | .error e => t.sess.ps = .failed ∧ t.sess.pserr = e ∧ t.tele = s.tele
        | .ok p =>
          if p.length < 56 then
            t.sess.ps = .failed ∧ t.sess.pserr = .truncated ∧ t.tele.derr = .truncated ∧ t.tele.tvalid = false
          else t.sess.ps = .done ∧ t.sess.pserr = .noError ∧ t.tele.derr = .noError ∧ t.tele.tvalid = true

/-! ## The whole block -/

/-- `CMDERR` is sticky: the reset event clears it and no other step does. -/
def Obligations.CmderrIsSticky : Prop :=
  ∀ s t : State, step s = .next t →
    (∀ rest, s.port = .reset :: rest → t.cmderr = false) ∧
    ((∀ rest, s.port ≠ .reset :: rest) → s.cmderr = true → t.cmderr = true)

/-- R268: an operation that is not admitted, and an undefined opcode, set `CMDERR` and change nothing else; and an instruction
that changes `CMDERR` was not admitted. -/
def Obligations.RefusalSetsCmderrOnly : Prop :=
  (∀ (i : Instr) (s : State), ¬ Admitted i s → exec i s = .next { s with cmderr := true }) ∧
  (∀ (w : CmdWord) (s : State), opOf w ∉ definedOps → handleRequest (.cmd w) s = .next { s with cmderr := true }) ∧
  ∀ (i : Instr) (s t : State), exec i s = .next t → t.cmderr ≠ s.cmderr → ¬ Admitted i s

/-- R30, R31, R37, R39, R40: which instructions can write each unit's registers; no instruction touches the model's own
fields. -/
def Obligations.EachUnitHasItsWriters : Prop :=
  ∀ (i : Instr) (s t : State), exec i s = .next t →
    (t.tele ≠ s.tele → i = .decode ∨ i = .psval) ∧
    (t.flg ≠ s.flg → i = .decode ∨ i = .psval ∨ ∃ b, i = .decst1 b ∨ i = .decst2 b ∨ i = .decwr1 b ∨ i = .decwr2 b ∨
      i = .decft1 b ∨ i = .decft2 b) ∧
    (t.comp ≠ s.comp → ∃ a b, i = .compose a b) ∧
    (t.tx ≠ s.tx → i = .encpoll ∨ i = .pspoll ∨ i = .wirePoll ∨
      ∃ y mo d h mi se, i = .encclk y mo d h mi se ∨ i = .wireSetclk y mo d h mi se) ∧
    (t.sess ≠ s.sess → i = .pspoll ∨ i = .psval ∨ ∃ p, i = .pscheck p) ∧
    (t.parser ≠ s.parser → i = .start ∨ i = .rxend ∨ i = .pscheck true ∨ (∃ b, i = .rxbyte b) ∨
      ∃ buf, i = .wireResp buf) ∧
    t.port = s.port ∧ t.resets = s.resets

/-- R28: the fields of `STATUS` stand at their places, and bits 31 to 26 read as 0. -/
def Obligations.StatusPacksItsFields : Prop :=
  ∀ s : State,
    s.status.extractLsb' 0 4 = s.parser.fsm.code ∧ s.status.extractLsb' 4 3 = s.parser.errc.code ∧
    s.status.getLsbD 7 = s.cmderr ∧ s.status.extractLsb' 8 8 = s.parser.plen ∧
    s.status.getLsbD 16 = s.tele.tvalid ∧ s.status.extractLsb' 17 3 = s.tele.derr.code ∧
    s.status.extractLsb' 20 3 = s.sess.ps.code ∧ s.status.extractLsb' 23 3 = s.sess.pserr.code ∧
    s.status.extractLsb' 26 6 = 0

/-- The state after reset meets the invariant. -/
def Obligations.ResetMeetsInvariant : Prop := State.reset.Inv

/-- Every step from a state that meets the invariant answers a state that meets it. -/
def Obligations.StepKeepsInvariant : Prop :=
  ∀ s t : State, s.Inv → step s = .next t → t.Inv

/-- From a state that meets the invariant no step ends in a fault, and none in a refusal but on outbound bytes of no wire
format (R267: after any error every operation is still admitted or refused by the same rules). -/
def Obligations.NoStepFaultsUnderInvariant : Prop :=
  ∀ s : State, s.Inv →
    (∃ t, step s = .next t) ∨ (step s = .refused .notOutbound ∧
      ∃ bytes rest, s.port = .request (.tx bytes) :: rest ∧ decode (.tx bytes) = .error (.notOutbound bytes))

/-- No instruction is refused a meaning: exec always answers a next state or one of the two faults of unreachable states. -/
def Obligations.NoInstructionIsRefused : Prop :=
  ∀ (i : Instr) (s : State), ∀ r, exec i s ≠ .refused r

/-! ## Corners and widths -/

/-- In `CSUM` with `LENR` 0 a matching checksum byte leaves `PLEN` 255, the 8-bit `0 - 1`. Only states no run reaches are
meant, and the wrap is the model's choice (log 12). -/
def Obligations.RxbyteZeroLengthWraps : Prop :=
  ∀ s : State, s.parser.fsm = .csum → s.parser.lenr = 0 →
    exec (.rxbyte s.parser.sum) s = .next { s with parser := { s.parser with plen := 255, fsm := .ok } }

/-- R16: the text of an exact decimal `(M, D)` is the whole part, and behind the point exactly `D` digits that stand for the rest.
That no point is written when `D` is 0 is the model's (log 20). -/
def Obligations.ExactDecimalTextHasItsDigits : Prop :=
  ∀ x : ExactDecimal, (x.d = 0 → x.text = dec x.m) ∧
    (0 < x.d → ∃ frac : Text, x.text = dec (x.m / 10 ^ x.d) ++ '.' :: frac ∧ frac.length = x.d ∧
      decimalValue frac = x.m % 10 ^ x.d ∧ ∀ c ∈ frac, '0' ≤ c ∧ c ≤ '9')

/-- R8, R40, D25: `W_RETRY` is the number of bits needed for `MAX_RETRIES + 1`, and `RETRY` is within it in every state that meets
the invariant. -/
def Obligations.RetryWidthIsWhatItNeeds : Prop :=
  (∀ P : Params, 2 ^ (wRetry P - 1) ≤ P.maxRetries + 1 ∧ P.maxRetries + 1 < 2 ^ wRetry P) ∧
    ∀ s : State, s.Inv → s.sess.retry < 2 ^ wRetry Config.params
end

