-- ==== Sys2Proof/Laws/Bytes.lean ====
section
/-! SUPPORT. The laws of the byte helpers: the checksum over a longer sequence, the two byte orders. -/

namespace Sys2Proof.Machine

@[simp] theorem sum8_nil : sum8 [] = 0 := rfl

@[simp] theorem sum8_cons (b : Byte) (p : List Byte) : sum8 (b :: p) = b + sum8 p := rfl

/-- The checksum is additive over concatenation (R125). -/
theorem sum8_append (p q : List Byte) : sum8 (p ++ q) = sum8 p + sum8 q := by
  induction p with
  | nil => simp
  | cons b p ih => simp [ih, BitVec.add_assoc]

/-- One more byte received. -/
theorem sum8_snoc (p : List Byte) (b : Byte) : sum8 (p ++ [b]) = sum8 p + b := by
  simp [sum8_append]

/-- The checksum after one byte of the sequence is replaced. -/
theorem sum8_set (p : List Byte) (k : Nat) (b : Byte) (h : k < p.length) : sum8 (p.set k b) + p[k] = sum8 p + b := by
  induction p generalizing k with
  | nil => simp at h
  | cons c p ih =>
    cases k with
    | zero =>
      show b + sum8 p + c = c + sum8 p + b
      ac_rfl
    | succ k =>
      have := ih k (by simpa using h)
      simp only [List.set_cons_succ, sum8_cons, List.getElem_cons_succ, BitVec.add_assoc, this]

/-- `u16le(lo, hi) = lo + 256 × hi` (R10). -/
theorem u16le_toNat (lo hi : Byte) : (u16le lo hi).toNat = lo.toNat + 256 * hi.toNat := by
  have h := lo.isLt
  rw [u16le, BitVec.toNat_append, ← Nat.shiftLeft_add_eq_or_of_lt h, Nat.shiftLeft_eq]
  omega

/-- `year div 256` (R95). -/
theorem highByte_toNat (v : Half) : (highByte v).toNat = v.toNat / 256 := by
  have h := v.isLt
  simp [highByte, Nat.shiftRight_eq_div_pow]
  omega

/-- `year mod 256` (R95). -/
theorem lowByte_toNat (v : Half) : (lowByte v).toNat = v.toNat % 256 := by
  simp [lowByte]

/-- The year's two bytes give the year back (R64, R65). -/
theorem u16le_low_high (v : Half) : u16le (lowByte v) (highByte v) = v := by
  apply BitVec.eq_of_toNat_eq
  rw [u16le_toNat, lowByte_toNat, highByte_toNat]
  omega

theorem highByte_u16le (lo hi : Byte) : highByte (u16le lo hi) = hi := by
  apply BitVec.eq_of_toNat_eq
  have h := lo.isLt
  rw [highByte_toNat, u16le_toNat]
  omega

theorem lowByte_u16le (lo hi : Byte) : lowByte (u16le lo hi) = lo := by
  apply BitVec.eq_of_toNat_eq
  have h := lo.isLt
  rw [lowByte_toNat, u16le_toNat]
  omega

@[simp] theorem bytesOfNat_length (n w : Nat) : (bytesOfNat n w).length = n := by
  induction n with
  | zero => rfl
  | succ n ih => simp [bytesOfNat, ih]

end Sys2Proof.Machine
end

