-- ==== Sys2Proof/Laws/Decimal.lean ====
section
/-! SUPPORT. The laws of decimal text: how `dec` splits at the last digit, how many digits a number has, and its bound. -/

namespace Sys2Proof.Machine

/-- Enough fuel gives the same digits. -/
theorem decAux_fuel (fuel n : Nat) (h : n ≤ fuel) : decAux fuel n = decAux n n := by
  induction n using Nat.strong_induction_on generalizing fuel with
  | _ n ih =>
    match fuel, n, h with
    | 0, 0, _ => rfl
    | fuel + 1, 0, _ => simp [decAux]
    | fuel + 1, n + 1, h =>
      rw [decAux, decAux]
      by_cases c : n + 1 < 10
      · rw [if_pos c, if_pos c]
      · have h1 : (n + 1) / 10 < n + 1 := Nat.div_lt_self (by omega) (by omega)
        rw [if_neg c, if_neg c, ih _ h1 fuel (by omega), ih _ h1 n (by omega)]

/-- A number below ten is its one digit. -/
theorem dec_of_lt {n : Nat} (h : n < 10) : dec n = [digitChar n] := by
  cases n with
  | zero => rfl
  | succ n => rw [dec, decAux, if_pos h]

/-- Any other number is the digits of its tenth and its last digit. -/
theorem dec_of_ge {n : Nat} (h : 10 ≤ n) : dec n = dec (n / 10) ++ [digitChar n] := by
  cases n with
  | zero => omega
  | succ n => rw [dec, decAux, if_neg (by omega), decAux_fuel n ((n + 1) / 10) (by omega)]; rfl

theorem ndigits_of_lt {n : Nat} (h : n < 10) : ndigits n = 1 := by simp [ndigits, dec_of_lt h]

theorem ndigits_of_ge {n : Nat} (h : 10 ≤ n) : ndigits n = ndigits (n / 10) + 1 := by
  simp [ndigits, dec_of_ge h]

theorem ndigits_pos (n : Nat) : 0 < ndigits n := by
  by_cases h : n < 10
  · simp [ndigits_of_lt h]
  · simp [ndigits_of_ge (Nat.le_of_not_lt h)]

/-- A number is below ten to its digit count. -/
theorem lt_pow_ndigits (n : Nat) : n < 10 ^ ndigits n := by
  induction n using Nat.strong_induction_on with
  | _ n ih =>
    by_cases h : n < 10
    · simpa [ndigits_of_lt h] using h
    · have h10 : 10 ≤ n := Nat.le_of_not_lt h
      have := ih (n / 10) (by omega)
      rw [ndigits_of_ge h10, pow_succ]
      omega

/-- A number of more than one digit is at least ten to one less. -/
theorem pow_pred_ndigits_le {n : Nat} (h : 0 < n) : 10 ^ (ndigits n - 1) ≤ n := by
  induction n using Nat.strong_induction_on with
  | _ n ih =>
    by_cases h9 : n < 10
    · rw [ndigits_of_lt h9]
      simpa using Nat.succ_le_of_lt h
    · have h10 : 10 ≤ n := Nat.le_of_not_lt h9
      have := ih (n / 10) (by omega) (by omega)
      have hp := ndigits_pos (n / 10)
      obtain ⟨d, hd⟩ : ∃ d, ndigits (n / 10) = d + 1 := ⟨_, (Nat.succ_pred_eq_of_pos hp).symm⟩
      rw [ndigits_of_ge h10, hd, Nat.add_sub_cancel, pow_succ]
      rw [hd, Nat.add_sub_cancel] at this
      omega

/-- The digit count of a 16-bit value (R171). -/
theorem ndigits_eq (n : Nat) (h : n < 100000) :
    ndigits n = if n ≤ 9 then 1 else if n ≤ 99 then 2 else if n ≤ 999 then 3 else if n ≤ 9999 then 4 else 5 := by
  by_cases h1 : n ≤ 9
  · rw [if_pos h1, ndigits_of_lt (by omega)]
  rw [if_neg h1, ndigits_of_ge (by omega)]
  by_cases h2 : n ≤ 99
  · rw [if_pos h2, ndigits_of_lt (by omega)]
  rw [if_neg h2, ndigits_of_ge (by omega)]
  by_cases h3 : n ≤ 999
  · rw [if_pos h3, ndigits_of_lt (by omega)]
  rw [if_neg h3, ndigits_of_ge (by omega)]
  by_cases h4 : n ≤ 9999
  · rw [if_pos h4, ndigits_of_lt (by omega)]
  rw [if_neg h4, ndigits_of_ge (by omega), ndigits_of_lt (by omega)]

/-- The digit count of a 16-bit value is 1 to 5 (R31). -/
theorem ndigits_half (f : BitVec 16) : 1 ≤ ndigits f.toNat ∧ ndigits f.toNat ≤ 5 := by
  have h := f.isLt
  refine ⟨ndigits_pos _, ?_⟩
  rw [ndigits_eq _ (by omega)]
  split_ifs <;> omega

/-- `pad` to the number's own width or less cuts nothing (R15). -/
theorem pad_of_le {n w : Nat} (h : w ≤ ndigits n) : pad n w = dec n := by
  simp [pad, Nat.sub_eq_zero_of_le h]

/-- The length of padded text (R15). -/
theorem pad_length (n w : Nat) : (pad n w).length = max w (ndigits n) := by
  simp only [pad, List.length_append, List.length_replicate, ndigits]
  omega

/-- Without digits after the point the text is the mantissa (log 20). -/
theorem ExactDecimal.text_of_zero {x : ExactDecimal} (h : x.d = 0) : x.text = dec x.m := by
  rw [ExactDecimal.text, if_pos h]

/-- With digits after the point the text has exactly that many (R16). -/
theorem ExactDecimal.text_of_pos {x : ExactDecimal} (h : 0 < x.d) :
    x.text = dec (x.m / 10 ^ x.d) ++ '.' :: pad (x.m % 10 ^ x.d) x.d := by
  rw [ExactDecimal.text, if_neg (Nat.ne_of_gt h)]

end Sys2Proof.Machine
end

