-- ==== Sys2Proof/Laws/PerInstr.lean ====
section
/-! SUPPORT. One lemma per instruction about its encoding: the request it is encoded as has the form and the opcode of its
row of spec/opcode_table.json (30_encoding.md R97; the wire rows R91, R93, R94). -/

namespace Sys2Proof

open Machine

/-- The opcode of a command word built from its parts (R96). -/
theorem opOf_cmdWord (op : Byte) (arg : BitVec 56) : opOf (cmdWord op arg) = op := by
  apply BitVec.eq_of_toNat_eq
  have ha := arg.isLt
  have ho := op.isLt
  simp only [opOf, cmdWord, BitVec.extractLsb'_toNat, BitVec.toNat_append]
  rw [← Nat.shiftLeft_add_eq_or_of_lt ha, Nat.shiftLeft_eq, Nat.shiftRight_eq_div_pow]
  omega

namespace Laws.EncodedRow

/-- The row an instruction's request belongs to: a command word with this opcode, or a wire unit. -/
inductive Row where
  | cmd (op : Byte)
  | rx
  | tx (bytes : Nat)
  deriving DecidableEq, Repr

/-- The row of a request. -/
def rowOf : Request → Row
  | .cmd w => .cmd (opOf w)
  | .rx _ => .rx
  | .tx bytes => .tx bytes.length

/-- The row of an instruction in spec/opcode_table.json: its opcode (R97), or its wire format and size (R91, R93, R94). -/
def tableRow : Instr → Row
  | .start => .cmd 0x01
  | .rxbyte _ => .cmd 0x02
  | .rxend => .cmd 0x03
  | .decst1 _ => .cmd 0x10
  | .decst2 _ => .cmd 0x11
  | .decwr1 _ => .cmd 0x12
  | .decwr2 _ => .cmd 0x13
  | .decft1 _ => .cmd 0x14
  | .decft2 _ => .cmd 0x15
  | .compose _ _ => .cmd 0x20
  | .decode => .cmd 0x30
  | .encpoll => .cmd 0x40
  | .encclk _ _ _ _ _ _ => .cmd 0x41
  | .pspoll => .cmd 0x50
  | .pscheck _ => .cmd 0x51
  | .psval => .cmd 0x52
  | .wireResp _ => .rx
  | .wirePoll => .tx 11
  | .wireSetclk _ _ _ _ _ _ => .tx 18

/-- The instruction is encoded in its own row. -/
def Statement (i : Instr) : Prop := rowOf (encode i) = tableRow i

theorem of_cmd (op : Byte) (arg : BitVec 56) : rowOf (.cmd (cmdWord op arg)) = .cmd op := by
  rw [rowOf, opOf_cmdWord]

theorem start : Statement .start := of_cmd _ _

theorem rxbyte (b : Byte) : Statement (.rxbyte b) := of_cmd _ _

theorem rxend : Statement .rxend := of_cmd _ _

theorem decst1 (b : Byte) : Statement (.decst1 b) := of_cmd _ _

theorem decst2 (b : Byte) : Statement (.decst2 b) := of_cmd _ _

theorem decwr1 (b : Byte) : Statement (.decwr1 b) := of_cmd _ _

theorem decwr2 (b : Byte) : Statement (.decwr2 b) := of_cmd _ _

theorem decft1 (b : Byte) : Statement (.decft1 b) := of_cmd _ _

theorem decft2 (b : Byte) : Statement (.decft2 b) := of_cmd _ _

theorem compose (i f : Half) : Statement (.compose i f) := of_cmd _ _

theorem decode : Statement .decode := of_cmd _ _

theorem encpoll : Statement .encpoll := of_cmd _ _

theorem encclk (year : Half) (month day hour minute second : Byte) :
    Statement (.encclk year month day hour minute second) := of_cmd _ _

theorem pspoll : Statement .pspoll := of_cmd _ _

theorem pscheck (p : Bool) : Statement (.pscheck p) := of_cmd _ _

theorem psval : Statement .psval := of_cmd _ _

theorem wireResp (buf : List Byte) : Statement (.wireResp buf) := rfl

theorem wirePoll : Statement .wirePoll := rfl

theorem wireSetclk (year : Half) (month day hour minute second : Byte) :
    Statement (.wireSetclk year month day hour minute second) := rfl

end Laws.EncodedRow

end Sys2Proof
end

