-- ==== Sys2Proof/Laws/Encoding.lean ====
section
/-! SUPPORT. The laws of command words: their bits, their fields, and which row of the opcode map reads them. -/

namespace Sys2Proof

open Machine

/-- The bits of a command word: `arg` below bit 56, `op` from there (R96). -/
theorem getLsbD_cmdWord (op : Byte) (arg : BitVec 56) (k : Nat) :
    (cmdWord op arg).getLsbD k = if k < 56 then arg.getLsbD k else op.getLsbD (k - 56) := by
  have h : (BitVec.append op arg).getLsbD k = if k < 56 then arg.getLsbD k else op.getLsbD (k - 56) := by
    rw [BitVec.append_eq, BitVec.getLsbD_append]
  exact h

/-- The bits of a one-byte operand field. -/
theorem getLsbD_byteArg (b : Byte) (k : Nat) : (byteArg b).getLsbD k = (decide (k < 8) && b.getLsbD k) := by
  have h : (BitVec.append (0 : BitVec 48) b).getLsbD k = (decide (k < 8) && b.getLsbD k) := by
    rw [BitVec.append_eq, BitVec.getLsbD_append]
    split_ifs with c <;> simp [c]
  exact h

/-- A field inside `arg` is that field of the operand bits. -/
theorem extract_cmdWord (op : Byte) (arg : BitVec 56) (lo len : Nat) (h : lo + len ≤ 56) :
    (cmdWord op arg).extractLsb' lo len = arg.extractLsb' lo len := by
  apply BitVec.eq_of_getLsbD_eq
  intro k hk
  rw [BitVec.getLsbD_extractLsb', BitVec.getLsbD_extractLsb', getLsbD_cmdWord, if_pos (by omega)]

/-- The one-byte operand is read back. -/
theorem byteAt_byteArg (op b : Byte) : byteAt (cmdWord op (byteArg b)) 0 = b := by
  rw [byteAt, extract_cmdWord _ _ _ _ (by omega)]
  apply BitVec.eq_of_getLsbD_eq
  intro k hk
  simp only [BitVec.getLsbD_extractLsb', Nat.zero_add, getLsbD_byteArg, hk, decide_true, Bool.true_and]

/-- A command word is read by the row of its opcode (R99). -/
theorem decode_cmdWord {op : Byte} (arg : BitVec 56) {r : OpRow} (h : opRows.find? (fun r => r.op == op) = some r) :
    decode (.cmd (cmdWord op arg)) = .ok (r.read (cmdWord op arg)) := by
  simp only [decode, decodeCmd, opOf_cmdWord, h]

/-- A command word is its opcode and its operand bits. -/
theorem cmdWord_eta (w : CmdWord) : cmdWord (opOf w) (w.extractLsb' 0 56) = w := by
  apply BitVec.eq_of_getLsbD_eq
  intro k hk
  rw [getLsbD_cmdWord]
  split_ifs with c
  · simp [c]
  · rw [opOf, BitVec.getLsbD_extractLsb', Nat.add_sub_cancel' (Nat.le_of_not_lt c), decide_eq_true (by omega : k - 56 < 8),
      Bool.true_and]

/-- The rows of the opcode map have distinct opcodes: no two overlap (R99). -/
theorem opRows_distinct : (opRows.map OpRow.op).Nodup := by decide

theorem opRows_ops : opRows.map OpRow.op = definedOps := rfl

/-- An opcode outside the map is rejected by name (R100). -/
theorem decode_undefined {w : CmdWord} (h : opOf w ∉ definedOps) :
    decode (.cmd w) = .error (.undefinedOpcode (opOf w)) := by
  have hn : opRows.find? (fun r => r.op == opOf w) = none := by
    rw [List.find?_eq_none]
    intro r hr
    rw [beq_iff_eq]
    intro e
    exact h (e ▸ opRows_ops ▸ List.mem_map_of_mem hr)
  simp only [decode, decodeCmd, hn]

end Sys2Proof
end

