-- ==== Sys2Proof/Laws/Mem.lean ====
section
/-! SUPPORT. The laws of byte arrays: a read after a write, and the canonical form under writes. -/

namespace Sys2Proof.Machine

@[simp] theorem Mem.read_nil (a : Nat) : Mem.read [] a = none := rfl

/-- A read after a write: the byte written there, and every other offset as before. -/
theorem Mem.read_write (m : Mem) (a : Nat) (b : Byte) (k : Nat) :
    Mem.read (Mem.write m a b) k = if k = a then some b else Mem.read m k := by
  induction m with
  | nil =>
    by_cases h : k = a
    · simp [Mem.write, Mem.read, h]
    · simp [Mem.write, Mem.read, h, Ne.symm h]
  | cons c m ih =>
    obtain ⟨j, v⟩ := c
    by_cases h1 : a < j
    · by_cases h : k = a
      · simp [Mem.write, Mem.read, h1, h]
      · simp [Mem.write, Mem.read, h1, h, Ne.symm h]
    · by_cases h2 : a = j
      · subst h2
        by_cases h : k = a
        · simp [Mem.write, Mem.read, h]
        · simp [Mem.write, Mem.read, h, Ne.symm h]
      · by_cases h : k = a
        · subst h
          simp [Mem.write, Mem.read, h1, h2, Ne.symm h2, ih]
        · by_cases h3 : j = k
          · subst h3
            simp [Mem.write, Mem.read, h1, h2, h]
          · simp [Mem.write, Mem.read, h1, h2, h, h3, ih]

@[simp] theorem Mem.read_write_self (m : Mem) (a : Nat) (b : Byte) : Mem.read (Mem.write m a b) a = some b := by
  simp [Mem.read_write]

theorem Mem.read_write_of_ne (m : Mem) (a : Nat) (b : Byte) {k : Nat} (h : k ≠ a) :
    Mem.read (Mem.write m a b) k = Mem.read m k := by
  simp [Mem.read_write, h]

/-- A read after a run of writes. -/
theorem Mem.read_writeAll (bs : List Byte) (m : Mem) (a k : Nat) :
    Mem.read (Mem.writeAll m a bs) k = if a ≤ k ∧ k < a + bs.length then bs[k - a]? else Mem.read m k := by
  induction bs generalizing m a with
  | nil => simp [Mem.writeAll, show ¬ (a ≤ k ∧ k < a) by omega]
  | cons b bs ih =>
    rw [Mem.writeAll, ih]
    by_cases h : a + 1 ≤ k ∧ k < a + 1 + bs.length
    · have e : k - a = (k - (a + 1)) + 1 := by omega
      rw [if_pos h, if_pos (by simp; omega), e]
      simp
    · rw [if_neg h, Mem.read_write]
      by_cases hk : k = a
      · subst hk
        simp
      · rw [if_neg hk, if_neg (by simp; omega)]

/-- A write keeps the rising order and the bound. -/
theorem Mem.wfFrom_write {size lo a : Nat} {m : Mem} (b : Byte) (h : Mem.wfFrom size lo m = true) (hlo : lo ≤ a)
    (ha : a < size) : Mem.wfFrom size lo (Mem.write m a b) = true := by
  induction m generalizing lo with
  | nil => simp [Mem.write, Mem.wfFrom, hlo, ha]
  | cons c m ih =>
    obtain ⟨j, v⟩ := c
    simp only [Mem.wfFrom, Bool.and_eq_true, decide_eq_true_eq] at h
    obtain ⟨⟨h1, h2⟩, h3⟩ := h
    by_cases c1 : a < j
    · simp [Mem.write, c1, Mem.wfFrom, hlo, ha, h2, h3]
    · by_cases c2 : a = j
      · subst c2
        simp [Mem.write, Mem.wfFrom, hlo, ha, h3]
      · simp [Mem.write, c1, c2, Mem.wfFrom, h1, h2, ih h3 (by omega)]

/-- Every write inside the array keeps the canonical form. -/
theorem Mem.wf_write {size a : Nat} {m : Mem} (b : Byte) (h : Mem.wf size m = true) (ha : a < size) :
    Mem.wf size (Mem.write m a b) = true := Mem.wfFrom_write b h (Nat.zero_le a) ha

theorem Mem.wf_writeAll {size : Nat} (bs : List Byte) {a : Nat} {m : Mem} (h : Mem.wf size m = true)
    (ha : a + bs.length ≤ size) : Mem.wf size (Mem.writeAll m a bs) = true := by
  induction bs generalizing a m with
  | nil => exact h
  | cons b bs ih =>
    simp only [List.length_cons] at ha
    exact ih (Mem.wf_write b h (by omega)) (by omega)

/-- The arrays of the reset state are in canonical form. -/
theorem Mem.wf_reset (k : Nat) (port : List Input) :
    Mem.wf paySize (State.afterReset k port).parser.pay = true ∧ Mem.wf txbSize (State.afterReset k port).tx.txb = true :=
  ⟨rfl, rfl⟩

end Sys2Proof.Machine
end

