-- ==== Sys2Proof/Laws/State.lean ====
section
/-! SUPPORT. One lemma per unit of the state and per named update: what the update leaves in that unit. -/

namespace Sys2Proof.Machine

@[simp] theorem raise_frame_parser (e : ErrCode) (s : State) :
    (raise .frame e s).parser = { s.parser with errc := e, fsm := .err } := rfl

@[simp] theorem raise_frame_cmderr (e : ErrCode) (s : State) :
    (raise .frame e s).cmderr = s.cmderr := rfl

@[simp] theorem raise_frame_flg (e : ErrCode) (s : State) :
    (raise .frame e s).flg = s.flg := rfl

@[simp] theorem raise_frame_comp (e : ErrCode) (s : State) :
    (raise .frame e s).comp = s.comp := rfl

@[simp] theorem raise_frame_tele (e : ErrCode) (s : State) :
    (raise .frame e s).tele = s.tele := rfl

@[simp] theorem raise_frame_tx (e : ErrCode) (s : State) :
    (raise .frame e s).tx = s.tx := rfl

@[simp] theorem raise_frame_sess (e : ErrCode) (s : State) :
    (raise .frame e s).sess = s.sess := rfl

@[simp] theorem raise_frame_port (e : ErrCode) (s : State) :
    (raise .frame e s).port = s.port := rfl

@[simp] theorem raise_frame_resets (e : ErrCode) (s : State) :
    (raise .frame e s).resets = s.resets := rfl

@[simp] theorem raise_tele_parser (e : ErrCode) (s : State) :
    (raise .tele e s).parser = s.parser := rfl

@[simp] theorem raise_tele_cmderr (e : ErrCode) (s : State) :
    (raise .tele e s).cmderr = s.cmderr := rfl

@[simp] theorem raise_tele_flg (e : ErrCode) (s : State) :
    (raise .tele e s).flg = s.flg := rfl

@[simp] theorem raise_tele_comp (e : ErrCode) (s : State) :
    (raise .tele e s).comp = s.comp := rfl

@[simp] theorem raise_tele_tele (e : ErrCode) (s : State) :
    (raise .tele e s).tele = { s.tele with derr := e, tvalid := false } := rfl

@[simp] theorem raise_tele_tx (e : ErrCode) (s : State) :
    (raise .tele e s).tx = s.tx := rfl

@[simp] theorem raise_tele_sess (e : ErrCode) (s : State) :
    (raise .tele e s).sess = s.sess := rfl

@[simp] theorem raise_tele_port (e : ErrCode) (s : State) :
    (raise .tele e s).port = s.port := rfl

@[simp] theorem raise_tele_resets (e : ErrCode) (s : State) :
    (raise .tele e s).resets = s.resets := rfl

@[simp] theorem raise_poll_parser (e : ErrCode) (s : State) :
    (raise .poll e s).parser = s.parser := rfl

@[simp] theorem raise_poll_cmderr (e : ErrCode) (s : State) :
    (raise .poll e s).cmderr = s.cmderr := rfl

@[simp] theorem raise_poll_flg (e : ErrCode) (s : State) :
    (raise .poll e s).flg = s.flg := rfl

@[simp] theorem raise_poll_comp (e : ErrCode) (s : State) :
    (raise .poll e s).comp = s.comp := rfl

@[simp] theorem raise_poll_tele (e : ErrCode) (s : State) :
    (raise .poll e s).tele = s.tele := rfl

@[simp] theorem raise_poll_tx (e : ErrCode) (s : State) :
    (raise .poll e s).tx = s.tx := rfl

@[simp] theorem raise_poll_sess (e : ErrCode) (s : State) :
    (raise .poll e s).sess = { s.sess with pserr := e, ps := .failed } := rfl

@[simp] theorem raise_poll_port (e : ErrCode) (s : State) :
    (raise .poll e s).port = s.port := rfl

@[simp] theorem raise_poll_resets (e : ErrCode) (s : State) :
    (raise .poll e s).resets = s.resets := rfl

@[simp] theorem freshParser_parser (s : State) :
    (freshParser s).parser = { s.parser with fsm := .m0, lenr := 0, cnt := 0, sum := 0, plen := 0, errc := .noError } := rfl

@[simp] theorem freshParser_cmderr (s : State) :
    (freshParser s).cmderr = s.cmderr := rfl

@[simp] theorem freshParser_flg (s : State) :
    (freshParser s).flg = s.flg := rfl

@[simp] theorem freshParser_comp (s : State) :
    (freshParser s).comp = s.comp := rfl

@[simp] theorem freshParser_tele (s : State) :
    (freshParser s).tele = s.tele := rfl

@[simp] theorem freshParser_tx (s : State) :
    (freshParser s).tx = s.tx := rfl

@[simp] theorem freshParser_sess (s : State) :
    (freshParser s).sess = s.sess := rfl

@[simp] theorem freshParser_port (s : State) :
    (freshParser s).port = s.port := rfl

@[simp] theorem freshParser_resets (s : State) :
    (freshParser s).resets = s.resets := rfl

@[simp] theorem refuse_parser (s : State) :
    (refuse s).parser = s.parser := rfl

@[simp] theorem refuse_cmderr (s : State) :
    (refuse s).cmderr = true := rfl

@[simp] theorem refuse_flg (s : State) :
    (refuse s).flg = s.flg := rfl

@[simp] theorem refuse_comp (s : State) :
    (refuse s).comp = s.comp := rfl

@[simp] theorem refuse_tele (s : State) :
    (refuse s).tele = s.tele := rfl

@[simp] theorem refuse_tx (s : State) :
    (refuse s).tx = s.tx := rfl

@[simp] theorem refuse_sess (s : State) :
    (refuse s).sess = s.sess := rfl

@[simp] theorem refuse_port (s : State) :
    (refuse s).port = s.port := rfl

@[simp] theorem refuse_resets (s : State) :
    (refuse s).resets = s.resets := rfl

@[simp] theorem sendBytes_parser (bs : List Byte) (s : State) :
    (sendBytes bs s).parser = s.parser := rfl

@[simp] theorem sendBytes_cmderr (bs : List Byte) (s : State) :
    (sendBytes bs s).cmderr = s.cmderr := rfl

@[simp] theorem sendBytes_flg (bs : List Byte) (s : State) :
    (sendBytes bs s).flg = s.flg := rfl

@[simp] theorem sendBytes_comp (bs : List Byte) (s : State) :
    (sendBytes bs s).comp = s.comp := rfl

@[simp] theorem sendBytes_tele (bs : List Byte) (s : State) :
    (sendBytes bs s).tele = s.tele := rfl

@[simp] theorem sendBytes_tx (bs : List Byte) (s : State) :
    (sendBytes bs s).tx = { txb := Mem.writeAll s.tx.txb 0 bs, txlen := BitVec.ofNat 5 bs.length } := rfl

@[simp] theorem sendBytes_sess (bs : List Byte) (s : State) :
    (sendBytes bs s).sess = s.sess := rfl

@[simp] theorem sendBytes_port (bs : List Byte) (s : State) :
    (sendBytes bs s).port = s.port := rfl

@[simp] theorem sendBytes_resets (bs : List Byte) (s : State) :
    (sendBytes bs s).resets = s.resets := rfl

@[simp] theorem decodeRole_parser (P : Params) (r : Role) (b : Byte) (s : State) :
    (decodeRole P r b s).parser = s.parser := rfl

@[simp] theorem decodeRole_cmderr (P : Params) (r : Role) (b : Byte) (s : State) :
    (decodeRole P r b s).cmderr = s.cmderr := rfl

@[simp] theorem decodeRole_flg (P : Params) (r : Role) (b : Byte) (s : State) :
    (decodeRole P r b s).flg = s.flg.set r (maskedFlags P r b) := rfl

@[simp] theorem decodeRole_comp (P : Params) (r : Role) (b : Byte) (s : State) :
    (decodeRole P r b s).comp = s.comp := rfl

@[simp] theorem decodeRole_tele (P : Params) (r : Role) (b : Byte) (s : State) :
    (decodeRole P r b s).tele = s.tele := rfl

@[simp] theorem decodeRole_tx (P : Params) (r : Role) (b : Byte) (s : State) :
    (decodeRole P r b s).tx = s.tx := rfl

@[simp] theorem decodeRole_sess (P : Params) (r : Role) (b : Byte) (s : State) :
    (decodeRole P r b s).sess = s.sess := rfl

@[simp] theorem decodeRole_port (P : Params) (r : Role) (b : Byte) (s : State) :
    (decodeRole P r b s).port = s.port := rfl

@[simp] theorem decodeRole_resets (P : Params) (r : Role) (b : Byte) (s : State) :
    (decodeRole P r b s).resets = s.resets := rfl

@[simp] theorem storeTelemetry_parser (P : Params) (w : Window) (s : State) :
    (storeTelemetry P w s).parser = s.parser := rfl

@[simp] theorem storeTelemetry_cmderr (P : Params) (w : Window) (s : State) :
    (storeTelemetry P w s).cmderr = s.cmderr := rfl

@[simp] theorem storeTelemetry_flg (P : Params) (w : Window) (s : State) :
    (storeTelemetry P w s).flg = decodeFlags P w := rfl

@[simp] theorem storeTelemetry_comp (P : Params) (w : Window) (s : State) :
    (storeTelemetry P w s).comp = s.comp := rfl

@[simp] theorem storeTelemetry_tele (P : Params) (w : Window) (s : State) :
    (storeTelemetry P w s).tele = { tvalid := true, derr := .noError, record := decodeRecord P w s.tele.record } := rfl

@[simp] theorem storeTelemetry_tx (P : Params) (w : Window) (s : State) :
    (storeTelemetry P w s).tx = s.tx := rfl

@[simp] theorem storeTelemetry_sess (P : Params) (w : Window) (s : State) :
    (storeTelemetry P w s).sess = s.sess := rfl

@[simp] theorem storeTelemetry_port (P : Params) (w : Window) (s : State) :
    (storeTelemetry P w s).port = s.port := rfl

@[simp] theorem storeTelemetry_resets (P : Params) (w : Window) (s : State) :
    (storeTelemetry P w s).resets = s.resets := rfl

@[simp] theorem resetEvent_parser (s : State) :
    (resetEvent s).parser = { fsm := .m0, lenr := 0, cnt := 0, sum := 0, plen := 0, errc := .noError, pay := [] } := rfl

@[simp] theorem resetEvent_cmderr (s : State) :
    (resetEvent s).cmderr = false := rfl

@[simp] theorem resetEvent_flg (s : State) :
    (resetEvent s).flg = .reset (s.resets + 1) := rfl

@[simp] theorem resetEvent_comp (s : State) :
    (resetEvent s).comp = .reset (s.resets + 1) := rfl

@[simp] theorem resetEvent_tele (s : State) :
    (resetEvent s).tele = { tvalid := false, derr := .noError, record := .reset (s.resets + 1) } := rfl

@[simp] theorem resetEvent_tx (s : State) :
    (resetEvent s).tx = { txb := [], txlen := 0 } := rfl

@[simp] theorem resetEvent_sess (s : State) :
    (resetEvent s).sess = { ps := .idle, pserr := .noError, retry := 0 } := rfl

@[simp] theorem resetEvent_port (s : State) :
    (resetEvent s).port = s.port := rfl

@[simp] theorem resetEvent_resets (s : State) :
    (resetEvent s).resets = s.resets + 1 := rfl

end Sys2Proof.Machine
end

