-- ==== Sys2Proof/Laws/Parser.lean ====
section
/-! SUPPORT. What the parser's operations can do: they write the parser registers only, they meet no fault while `CNT` is a
payload offset, and they keep the parser's invariant. -/

namespace Sys2Proof.Machine

theorem OnlyParser.refl (s : State) : OnlyParser s s := rfl

theorem OnlyParser.trans {s t u : State} (h : OnlyParser s t) (k : OnlyParser t u) : OnlyParser s u := by
  unfold OnlyParser at *
  rw [k, h]

theorem onlyParser_raise (e : ErrCode) (s : State) : OnlyParser s (raise .frame e s) := rfl

theorem onlyParser_freshParser (s : State) : OnlyParser s (freshParser s) := rfl

/-- Everything `RXBYTE` can do, by parser state: the next state it answers and the case it was in (R122). -/
theorem rxByte_cases {b : Byte} {s t : State} (h : rxByte b s = .ok t) :
    (∃ k f, (s.parser.fsm, k, f) ∈ [(Fsm.m0, 0, Fsm.m1), (.m1, 1, .m2), (.m2, 2, .m3), (.m3, 3, .len)] ∧
      t = rxMagic k f b s) ∨
    (s.parser.fsm = .len ∧ t = rxLength b s) ∨
    (s.parser.fsm = .payl ∧ rxPayload b s = .ok t) ∨
    (s.parser.fsm = .csum ∧ t = rxChecksum b s) ∨
    (s.parser.fsm.verdict = true ∧ t = s) := by
  unfold rxByte at h
  split at h <;> rename_i hf <;> simp_all [Fsm.verdict]

theorem onlyParser_rxPayload {b : Byte} {s t : State} (h : rxPayload b s = .ok t) : OnlyParser s t := by
  unfold rxPayload at h
  by_cases c : s.parser.cnt.toNat < paySize
  · simp only [c, if_true, Except.ok.injEq] at h
    rw [← h]; rfl
  · simp [c] at h

theorem onlyParser_rxMagic (k : Nat) (f : Fsm) (b : Byte) (s : State) : OnlyParser s (rxMagic k f b s) := by
  unfold rxMagic; split_ifs <;> rfl

theorem onlyParser_rxLength (b : Byte) (s : State) : OnlyParser s (rxLength b s) := by
  unfold rxLength; dsimp only; split_ifs <;> rfl

theorem onlyParser_rxChecksum (b : Byte) (s : State) : OnlyParser s (rxChecksum b s) := by
  unfold rxChecksum; split_ifs <;> rfl

theorem onlyParser_rxByte {b : Byte} {s t : State} (h : rxByte b s = .ok t) : OnlyParser s t := by
  rcases rxByte_cases h with ⟨k, f, -, rfl⟩ | ⟨-, rfl⟩ | ⟨-, h⟩ | ⟨-, rfl⟩ | ⟨-, rfl⟩
  · exact onlyParser_rxMagic k f b s
  · exact onlyParser_rxLength b s
  · exact onlyParser_rxPayload h
  · exact onlyParser_rxChecksum b s
  · rfl

theorem onlyParser_rxEnd (s : State) : OnlyParser s (rxEnd s) := by
  unfold rxEnd; split <;> rfl

theorem onlyParser_rxBytes {bs : List Byte} {s t : State} (h : rxBytes bs s = .ok t) : OnlyParser s t := by
  induction bs generalizing s with
  | nil => simp only [rxBytes, Except.ok.injEq] at h; rw [h]; rfl
  | cons b bs ih =>
    simp only [rxBytes] at h
    cases hb : rxByte b s with
    | ok u => rw [hb] at h; exact (onlyParser_rxByte hb).trans (ih h)
    | error f => rw [hb] at h; simp at h

theorem onlyParser_validateBuffer {buf : List Byte} {s t : State} (h : validateBuffer buf s = .ok t) :
    OnlyParser s t := by
  unfold validateBuffer at h
  cases hb : rxBytes buf (freshParser s) with
  | ok u =>
    rw [hb] at h
    simp only [Except.ok.injEq] at h
    rw [← h]
    exact (onlyParser_freshParser s).trans ((onlyParser_rxBytes hb).trans (onlyParser_rxEnd u))
  | error f => rw [hb] at h; simp at h

/-- `RXBYTE` answers a next state unless the payload store would be past `PAY` (R63). -/
theorem rxByte_ok {b : Byte} {s : State} (h : s.parser.fsm = .payl → s.parser.cnt.toNat < paySize) :
    ∃ t, rxByte b s = .ok t := by
  unfold rxByte
  split <;> rename_i hf <;> try exact ⟨_, rfl⟩
  exact ⟨_, by unfold rxPayload; dsimp only; rw [if_pos (h hf)]⟩

/-- Streaming a longer buffer is streaming its parts. -/
theorem rxBytes_append (as bs : List Byte) (s : State) :
    rxBytes (as ++ bs) s = (match rxBytes as s with | .ok t => rxBytes bs t | .error f => .error f) := by
  induction as generalizing s with
  | nil => rfl
  | cons a as ih =>
    simp only [List.cons_append, rxBytes]
    cases rxByte a s with
    | ok u => exact ih u
    | error f => rfl

/-- After a verdict the rest of a buffer changes nothing (R126). -/
theorem rxBytes_verdict {s : State} (h : s.parser.fsm.verdict = true) (bs : List Byte) : rxBytes bs s = .ok s := by
  induction bs with
  | nil => rfl
  | cons b bs ih =>
    have hb : rxByte b s = .ok s := by
      unfold rxByte
      split <;> rename_i hf <;> simp [hf, Fsm.verdict] at h <;> rfl
    simp [rxBytes, hb, ih]

theorem rxEnd_verdict (s : State) : (rxEnd s).parser.fsm.verdict = true := by
  unfold rxEnd
  split <;> rename_i hf <;> simp [Fsm.verdict, hf]

/-- A fresh parser meets its invariant, whatever `PAY` holds (R121). -/
theorem parserInv_fresh {s : State} (h : Mem.wf paySize s.parser.pay = true) : ParserInv (freshParser s).parser where
  payWf := h
  errcIff := by simp
  errcKind := by simp
  plenZero := by simp
  header := by simp
  headerErr := by simp
  payload := by simp
  checksum := by simp
  valid := by simp
  cntMax := by simp
  sumOf := ⟨[], by simp⟩

/-- A parser error keeps the invariant (R263). -/
theorem parserInv_raise {s : State} (h : ParserInv s.parser) {e : ErrCode} (h0 : e ≠ .noError) (h4 : e ≠ .timeoutError)
    (hp : s.parser.plen = 0) (hl : e = .headerMismatch → s.parser.lenr = 0) : ParserInv (raise .frame e s).parser where
  payWf := h.payWf
  errcIff := by simp [h0]
  errcKind := h4
  plenZero := fun _ => hp
  header := by simp
  headerErr := hl
  payload := by simp
  checksum := by simp
  valid := by simp
  cntMax := h.cntMax
  sumOf := h.sumOf

theorem parserInv_rxMagic {s : State} (h : ParserInv s.parser) {b : Byte} {k : Nat} {f : Fsm}
    (hk : (s.parser.fsm, k, f) ∈ [(Fsm.m0, 0, Fsm.m1), (.m1, 1, .m2), (.m2, 2, .m3), (.m3, 3, .len)]) :
    ParserInv (rxMagic k f b s).parser := by
  have hf : s.parser.fsm = .m0 ∨ s.parser.fsm = .m1 ∨ s.parser.fsm = .m2 ∨ s.parser.fsm = .m3 ∨ s.parser.fsm = .len := by
    simp at hk; tauto
  have hnew : f = .m1 ∨ f = .m2 ∨ f = .m3 ∨ f = .len := by simp at hk; tauto
  obtain ⟨h1, h2, h3⟩ := h.header hf
  have hne : s.parser.fsm ≠ .ok ∧ s.parser.fsm ≠ .err := by rcases hf with e | e | e | e | e <;> simp [e]
  have hp := h.plenZero hne.1
  unfold rxMagic
  split_ifs
  · have hok : f ≠ .ok ∧ f ≠ .err ∧ f ≠ .payl ∧ f ≠ .csum := by rcases hnew with e | e | e | e <;> simp [e]
    have herr : s.parser.errc = .noError := by
      by_contra c
      exact hne.2 (h.errcIff.1 c)
    exact {
      payWf := h.payWf
      errcIff := by simp [herr, hok]
      errcKind := h.errcKind
      plenZero := fun _ => hp
      header := fun _ => ⟨h1, h2, h3⟩
      headerErr := fun _ => h1
      payload := fun c => absurd c hok.2.2.1
      checksum := fun c => absurd c hok.2.2.2
      valid := fun c => absurd c hok.1
      cntMax := h.cntMax
      sumOf := h.sumOf }
  · exact parserInv_raise h (by simp) (by simp) hp fun _ => h1

theorem parserInv_rxLength {s : State} (h : ParserInv s.parser) (hf : s.parser.fsm = .len) (b : Byte) :
    ParserInv (rxLength b s).parser := by
  have hp := h.plenZero (by simp [hf])
  have herr : s.parser.errc = .noError := by
    by_contra c
    simpa [hf] using h.errcIff.1 c
  by_cases c0 : b = 0
  · simp only [rxLength, c0, if_true, raise_frame_parser]
    exact {
      payWf := h.payWf
      errcIff := by simp
      errcKind := by simp
      plenZero := fun _ => hp
      header := by simp
      headerErr := by simp
      payload := by simp
      checksum := by simp
      valid := by simp
      cntMax := by simp
      sumOf := ⟨[], by simp⟩ }
  by_cases c1 : b = 1
  · simp only [rxLength, c1]
    exact {
      payWf := h.payWf
      errcIff := by simp [herr]
      errcKind := h.errcKind
      plenZero := fun _ => hp
      header := by simp
      headerErr := by simp [herr]
      payload := by simp
      checksum := by simp
      valid := by simp
      cntMax := by simp
      sumOf := ⟨[], by simp⟩ }
  · have hb : 1 < b.toNat := by
      have e0 : b.toNat ≠ 0 := fun e => c0 (BitVec.eq_of_toNat_eq (by simpa using e))
      have e1 : b.toNat ≠ 1 := fun e => c1 (BitVec.eq_of_toNat_eq (by simpa using e))
      omega
    simp only [rxLength, c0, c1, if_false]
    exact {
      payWf := h.payWf
      errcIff := by simp [herr]
      errcKind := h.errcKind
      plenZero := fun _ => hp
      header := by simp
      headerErr := by simp [herr]
      payload := by simpa using hb
      checksum := by simp
      valid := by simp
      cntMax := by simp
      sumOf := ⟨[], by simp⟩ }

theorem parserInv_rxPayload {s t : State} {b : Byte} (h : ParserInv s.parser) (hf : s.parser.fsm = .payl)
    (ht : rxPayload b s = .ok t) : ParserInv t.parser := by
  have hp := h.plenZero (by simp [hf])
  have herr : s.parser.errc = .noError := by
    by_contra c
    simpa [hf] using h.errcIff.1 c
  have hlt := h.payload hf
  have hl := s.parser.lenr.isLt
  have hc : s.parser.cnt.toNat < paySize := by unfold paySize; omega
  have hcnt : (s.parser.cnt + 1).toNat = s.parser.cnt.toNat + 1 := by
    rw [BitVec.toNat_add]
    simp
    omega
  unfold rxPayload at ht
  simp only [hc, if_true, Except.ok.injEq] at ht
  obtain ⟨bs, b1, b2, b3⟩ := h.sumOf
  rw [← ht]
  exact {
    payWf := Mem.wf_write b h.payWf hc
    errcIff := by
      by_cases c : s.parser.cnt.toNat + 1 + 1 = s.parser.lenr.toNat <;> simp [herr, hf, c]
    errcKind := h.errcKind
    plenZero := fun _ => hp
    header := by
      by_cases c : s.parser.cnt.toNat + 1 + 1 = s.parser.lenr.toNat <;> simp [hf, c]
    headerErr := by simp [herr]
    payload := by
      dsimp only
      rw [hcnt]
      by_cases c : s.parser.cnt.toNat + 1 + 1 = s.parser.lenr.toNat
      · simp [c]
      · simp only [c, if_false]
        omega
    checksum := by
      dsimp only
      rw [hcnt]
      by_cases c : s.parser.cnt.toNat + 1 + 1 = s.parser.lenr.toNat
      · simp [c]
      · simp [c, hf]
    valid := by
      dsimp only
      by_cases c : s.parser.cnt.toNat + 1 + 1 = s.parser.lenr.toNat <;> simp [c, hf]
    cntMax := by
      dsimp only
      rw [hcnt]
      omega
    sumOf := by
      refine ⟨bs ++ [b], by rw [List.length_append, b1]; exact hcnt.symm, ?_, by simp [sum8_snoc, b3]⟩
      intro k hk
      rw [Mem.read_write]
      by_cases c : k = s.parser.cnt.toNat
      · rw [if_pos c, c, ← b1]
        simp
      · rw [if_neg c, b2 k (by simp at hk; omega), List.getElem?_append_left (by simp at hk; omega)] }

theorem parserInv_rxChecksum {s : State} (h : ParserInv s.parser) (hf : s.parser.fsm = .csum) (b : Byte) :
    ParserInv (rxChecksum b s).parser := by
  have hp := h.plenZero (by simp [hf])
  have herr : s.parser.errc = .noError := by
    by_contra c
    simpa [hf] using h.errcIff.1 c
  have hl := h.checksum hf
  unfold rxChecksum
  split_ifs
  · exact {
      payWf := h.payWf
      errcIff := by simp [herr]
      errcKind := h.errcKind
      plenZero := by simp
      header := by simp
      headerErr := by simp [herr]
      payload := by simp
      checksum := by simp
      valid := fun _ => ⟨hl, by
        apply BitVec.eq_of_toNat_eq
        have := s.parser.lenr.isLt
        show (s.parser.lenr - 1).toNat = s.parser.cnt.toNat
        rw [BitVec.toNat_sub]
        simp
        omega⟩
      cntMax := h.cntMax
      sumOf := h.sumOf }
  · exact parserInv_raise h (by simp) (by simp) hp (by simp)

/-- `RXBYTE` keeps the parser's invariant. -/
theorem parserInv_rxByte {s t : State} {b : Byte} (h : ParserInv s.parser) (ht : rxByte b s = .ok t) :
    ParserInv t.parser := by
  rcases rxByte_cases ht with ⟨k, f, hk, rfl⟩ | ⟨hf, rfl⟩ | ⟨hf, ht⟩ | ⟨hf, rfl⟩ | ⟨-, rfl⟩
  · exact parserInv_rxMagic h hk
  · exact parserInv_rxLength h hf b
  · exact parserInv_rxPayload h hf ht
  · exact parserInv_rxChecksum h hf b
  · exact h

/-- `RXEND` keeps the parser's invariant. -/
theorem parserInv_rxEnd {s : State} (h : ParserInv s.parser) : ParserInv (rxEnd s).parser := by
  unfold rxEnd
  split <;> rename_i hf
  iterate 4 exact parserInv_raise h (by simp) (by simp) (h.plenZero (by simp [hf])) fun _ => (h.header (by simp [hf])).1
  iterate 3 exact parserInv_raise h (by simp) (by simp) (h.plenZero (by simp [hf])) (by simp)
  · exact h
  · exact h

/-- In a state that meets the parser's invariant `RXBYTE` meets no fault (R63). -/
theorem rxByte_ok_of_inv {s : State} (h : ParserInv s.parser) (b : Byte) : ∃ t, rxByte b s = .ok t := by
  refine rxByte_ok fun hf => ?_
  have := h.payload hf
  have := s.parser.lenr.isLt
  unfold paySize
  omega

/-- A buffer streams without a fault, and keeps the parser's invariant. -/
theorem rxBytes_inv (bs : List Byte) {s : State} (h : ParserInv s.parser) :
    ∃ t, rxBytes bs s = .ok t ∧ ParserInv t.parser := by
  induction bs generalizing s with
  | nil => exact ⟨s, rfl, h⟩
  | cons b bs ih =>
    obtain ⟨u, hu⟩ := rxByte_ok_of_inv h b
    obtain ⟨t, ht, hi⟩ := ih (parserInv_rxByte h hu)
    exact ⟨t, by simp [rxBytes, hu, ht], hi⟩

end Sys2Proof.Machine
end

