-- ==== Sys2Proof/Laws/Telemetry.lean ====
section
/-! SUPPORT. What the telemetry decoder can do: its three cases, when its payload window is there, and that it keeps the
invariants of the telemetry and flag registers. -/

namespace Sys2Proof.Machine

/-- The window of a decodable state is its payload bytes. -/
theorem payWindow_of_decodable {s : State} {w : Window} (h : Decodable s w) : payWindow s = .ok w := by
  obtain ⟨hf, hp, hw⟩ := h
  have hr : ∀ a : Fin 56, readPay s a.val = some (w a) := by
    intro a
    have := a.isLt
    unfold minPayload at hp
    rw [readPay, if_pos ⟨hf, by omega⟩, hw a]
  unfold payWindow
  rw [dif_pos (fun a => by rw [hr a]; rfl)]
  congr 1
  funext a
  simp [hr a]

/-- A window that is there is the payload's bytes. -/
theorem decodable_of_payWindow {s : State} {w : Window} (hf : s.parser.fsm = .ok)
    (hp : minPayload ≤ s.parser.plen.toNat) (h : payWindow s = .ok w) : Decodable s w := by
  refine ⟨hf, hp, fun a => ?_⟩
  unfold payWindow at h
  split at h
  · rename_i hs
    simp only [Except.ok.injEq] at h
    rw [← h]
    have hr : readPay s a.val = Mem.read s.parser.pay a.val := by
      have := a.isLt
      unfold minPayload at hp
      rw [readPay, if_pos ⟨hf, by omega⟩]
    rw [← hr]
    exact (Option.some_get (hs a)).symm
  · simp at h

/-- Under the parser's invariant a validated payload of at least 56 bytes is decodable (R62). -/
theorem decodable_of_inv {s : State} (h : ParserInv s.parser) (hf : s.parser.fsm = .ok)
    (hp : minPayload ≤ s.parser.plen.toNat) : ∃ w, Decodable s w := by
  obtain ⟨bs, h1, h2, -⟩ := h.sumOf
  obtain ⟨-, hc⟩ := h.valid hf
  rw [hc] at hp
  unfold minPayload at hp
  refine ⟨fun a => bs[a.val]'(by have := a.isLt; omega), hf, by rw [hc]; exact hp, fun a => ?_⟩
  have ha : a.val < bs.length := by have := a.isLt; omega
  rw [h2 a.val ha, List.getElem?_eq_getElem ha]

/-- Everything `DECODE` can do (R186). -/
theorem decodeOp_cases {P : Params} {s t : State} (h : decodeOp P s = .ok t) :
    (s.parser.fsm ≠ .ok ∧ t = refuse s) ∨
    (s.parser.fsm = .ok ∧ s.parser.plen.toNat < minPayload ∧ t = raise .tele .truncated s) ∨
    (∃ w, Decodable s w ∧ t = storeTelemetry P w s) := by
  unfold decodeOp at h
  split_ifs at h with c1 c2
  · exact .inl ⟨c1, by simpa using h.symm⟩
  · exact .inr (.inl ⟨not_not.1 c1, c2, by simpa using h.symm⟩)
  · refine .inr (.inr ?_)
    cases hw : payWindow s with
    | ok w =>
      rw [hw] at h
      exact ⟨w, decodable_of_payWindow (not_not.1 c1) (Nat.le_of_not_lt c2) hw, by simpa using h.symm⟩
    | error f => rw [hw] at h; simp at h

/-- `DECODE` of a decodable payload stores the telemetry (R186). -/
theorem decodeOp_of_decodable {P : Params} {s : State} {w : Window} (h : Decodable s w) :
    decodeOp P s = .ok (storeTelemetry P w s) := by
  unfold decodeOp
  rw [if_neg (not_not.2 h.1), if_neg (Nat.not_lt.2 h.2.1), payWindow_of_decodable h]

/-- Under the parser's invariant `DECODE` meets no fault. -/
theorem decodeOp_ok_of_inv (P : Params) {s : State} (h : ParserInv s.parser) : ∃ t, decodeOp P s = .ok t := by
  by_cases c1 : s.parser.fsm = .ok
  · by_cases c2 : s.parser.plen.toNat < minPayload
    · exact ⟨_, by unfold decodeOp; rw [if_neg (not_not.2 c1), if_pos c2]⟩
    · obtain ⟨w, hw⟩ := decodable_of_inv h c1 (Nat.le_of_not_lt c2)
      exact ⟨_, decodeOp_of_decodable hw⟩
  · exact ⟨_, by unfold decodeOp; rw [if_pos c1]⟩

theorem composed_coherent (i f : Half) : (composed i f).Coherent := by
  unfold Composed.Coherent composed
  have := (ndigits_half f).2
  simp only [BitVec.toNat_ofNat]
  omega

theorem comp_coherent (w : Window) (pi pf : PartAt) : (comp w pi pf).Coherent := composed_coherent _ _

/-- A byte is within the mask it was masked with (R30). -/
theorem maskedFlags_masked (P : Params) (r : Role) (b : Byte) : maskedFlags P r b &&& ~~~(maskOf P r) = 0 := by
  unfold maskedFlags
  rw [BitVec.and_assoc, BitVec.and_not_self]
  simp

theorem decodeFlags_get (P : Params) (w : Window) (r : Role) : ∃ b, (decodeFlags P w).get r = maskedFlags P r b := by
  cases r <;> exact ⟨_, rfl⟩

theorem FlagRegs.get_set (f : FlagRegs) (r q : Role) (v : Byte) :
    (f.set r v).get q = if q = r then v else f.get q := by
  cases r <;> cases q <;> rfl

/-- A `DEC*` operation keeps the masked bits at 0 (R30). -/
theorem flagsMasked_set {f : FlagRegs} (h : FlagsMasked f) (r : Role) (b : Byte) :
    FlagsMasked (f.set r (maskedFlags Config.params r b)) := by
  intro q
  rw [FlagRegs.get_set]
  split_ifs with c
  · rw [c]
    exact maskedFlags_masked _ r b
  · exact h q

theorem flagsMasked_decodeFlags (w : Window) : FlagsMasked (decodeFlags Config.params w) := by
  intro r
  obtain ⟨b, hb⟩ := decodeFlags_get Config.params w r
  rw [hb]
  exact maskedFlags_masked _ r b

/-- A successful `DECODE` leaves a coherent record (R33, R34, R205). -/
theorem teleInv_store (w : Window) (s : State) : TeleInv (storeTelemetry Config.params w s).tele where
  derrKind := .inl rfl
  validNoError := fun _ => rfl
  temps := by simp [decodeRecord, nTempOther]
  record := fun _ => by
    refine ⟨comp_coherent .., comp_coherent .., comp_coherent .., comp_coherent .., rfl, ?_⟩
    simp only [storeTelemetry_tele, decodeRecord, sentinel]
    split_ifs with c
    · simp
    · exact fun _ => c

theorem teleInv_raise {s : State} (h : TeleInv s.tele) : TeleInv (raise .tele .truncated s).tele where
  derrKind := .inr rfl
  validNoError := by simp
  temps := h.temps
  record := by simp

end Sys2Proof.Machine
end

