-- ==== Sys2Proof/Laws/Session.lean ====
section
/-! SUPPORT. What the transmit buffer and the session can do, and that they keep their invariants. -/

namespace Sys2Proof.Machine

@[simp] theorem pollLiteral_length : pollLiteral.length = 11 := rfl

@[simp] theorem setclkBytes_length (P : Params) (y : Half) (mo d h mi s : Byte) :
    (setclkBytes P y mo d h mi s).length = 18 := rfl

/-- A byte of `TXB` after a command is built: the command's byte, or as before (R39). -/
theorem read_sendBytes (bs : List Byte) (s : State) (k : Nat) :
    Mem.read (sendBytes bs s).tx.txb k = if k < bs.length then bs[k]? else Mem.read s.tx.txb k := by
  simp [Mem.read_writeAll]

/-- Building a command keeps the transmit buffer's invariant (R39). -/
theorem txInv_sendBytes {s : State} (h : TxInv s.tx) {bs : List Byte} (hl : bs.length = 11 ∨ bs.length = 18) :
    TxInv (sendBytes bs s).tx where
  txbWf := Mem.wf_writeAll bs h.txbWf (by unfold txbSize; omega)
  lenKind := by rcases hl with e | e <;> simp [e]
  written := by
    intro k hk
    have hk' : k < bs.length := by rcases hl with e | e <;> rw [e] <;> simp [e] at hk <;> omega
    rw [read_sendBytes, if_pos hk']
    simp [hk']

/-- `W_RETRY` bits hold `MAX_RETRIES + 1` (D25). -/
theorem lt_two_pow_wRetry (P : Params) : P.maxRetries + 1 < 2 ^ wRetry P := Nat.lt_log2_self

/-- Everything `PSPOLL` can do (R236). -/
theorem pollStart_cases (s : State) :
    (s.sess.ps.active = true ∧ pollStart s = refuse s) ∨
    (s.sess.ps.active = false ∧
      pollStart s = { sendPoll s with sess := { ps := .await, pserr := .noError, retry := 0 } }) := by
  cases h : s.sess.ps.active
  · exact .inr ⟨rfl, by simp [pollStart, h]⟩
  · exact .inl ⟨rfl, by simp [pollStart, h]⟩

/-- Everything `PSCHECK` can do (R238). -/
theorem pollCheck_cases (P : Params) (p : Bool) (s : State) :
    (s.sess.ps ≠ .await ∧ pollCheck P p s = refuse s) ∨
    (s.sess.ps = .await ∧ p = true ∧ pollCheck P p s = { freshParser s with sess := { s.sess with ps := .validating } }) ∨
    (s.sess.ps = .await ∧ p = false ∧ P.maxRetries < s.sess.retry + 1 ∧
      pollCheck P p s = { s with sess := { ps := .failed, pserr := .timeoutError, retry := s.sess.retry + 1 } }) ∨
    (s.sess.ps = .await ∧ p = false ∧ s.sess.retry + 1 ≤ P.maxRetries ∧
      pollCheck P p s = { s with sess := { s.sess with retry := s.sess.retry + 1 } }) := by
  by_cases c : s.sess.ps = .await
  · cases p
    · by_cases m : P.maxRetries < s.sess.retry + 1
      · exact .inr (.inr (.inl ⟨c, rfl, m, by simp [pollCheck, c, m, raise]⟩))
      · exact .inr (.inr (.inr ⟨c, rfl, Nat.le_of_not_lt m, by simp [pollCheck, c, m]⟩))
    · exact .inr (.inl ⟨c, rfl, by simp [pollCheck, c]⟩)
  · exact .inl ⟨c, by simp [pollCheck, c]⟩

/-- Everything `PSVAL` can do (R239). -/
theorem pollValidate_cases {P : Params} {s t : State} (h : pollValidate P s = .ok t) :
    ((s.sess.ps ≠ .validating ∨ s.parser.fsm.verdict = false) ∧ t = refuse s) ∨
    (s.sess.ps = .validating ∧ s.parser.fsm = .err ∧ t = raise .poll s.parser.errc s) ∨
    (s.sess.ps = .validating ∧ s.parser.fsm = .ok ∧ s.parser.plen.toNat < minPayload ∧
      t = raise .poll .truncated (raise .tele .truncated s)) ∨
    (s.sess.ps = .validating ∧ ∃ w, Decodable s w ∧
      t = { storeTelemetry P w s with sess := { s.sess with pserr := .noError, ps := .done } }) := by
  unfold pollValidate at h
  split_ifs at h with c1 c2
  · exact .inl ⟨c1, by simpa using h.symm⟩
  · have hv : s.sess.ps = .validating := by by_contra c; exact c1 (.inl c)
    exact .inr (.inl ⟨hv, c2, by simpa using h.symm⟩)
  · have hv : s.sess.ps = .validating := by by_contra c; exact c1 (.inl c)
    refine .inr (.inr ?_)
    cases hd : decodeOp P s with
    | error f => rw [hd] at h; simp at h
    | ok u =>
      rw [hd] at h
      rcases decodeOp_cases hd with ⟨hf, -⟩ | ⟨hf, hp, rfl⟩ | ⟨w, hw, rfl⟩
      · exfalso
        apply c1
        right
        cases hs : s.parser.fsm <;> first | rfl | exact absurd hs hf | exact absurd hs c2
      · exact .inl ⟨hv, hf, hp, by simpa using h.symm⟩
      · exact .inr ⟨hv, w, hw, by simpa using h.symm⟩

/-- Under the parser's invariant `PSVAL` meets no fault. -/
theorem pollValidate_ok_of_inv (P : Params) {s : State} (h : ParserInv s.parser) : ∃ t, pollValidate P s = .ok t := by
  unfold pollValidate
  split_ifs
  · exact ⟨_, rfl⟩
  · exact ⟨_, rfl⟩
  · obtain ⟨u, hu⟩ := decodeOp_ok_of_inv P h
    rw [hu]
    dsimp only
    split_ifs <;> exact ⟨_, rfl⟩

end Sys2Proof.Machine
end

