-- ==== Sys2Proof/Laws/Stream.lean ====
section
/-! SUPPORT. What streaming a buffer does: lists of instructions in turn, a payload byte by byte, and `Validate` of a buffer that
begins with the magic. -/

namespace Sys2Proof.Machine

/-- A next state comes from an operation that met no fault. -/
theorem finish_next {e : Except Fault State} {t : State} (h : finish e = .next t) : e = .ok t := by
  cases e with
  | ok u => simpa [finish] using h
  | error f => simp [finish] at h

/-- An operation that may meet a fault is never refused. -/
theorem finish_ne_refused (e : Except Fault State) (r : Refusal) : finish e ≠ .refused r := by
  cases e <;> simp [finish]

/-- What an operation of the parser leaves in the other units. -/
theorem OnlyParser.frame {s t : State} (h : OnlyParser s t) :
    t.cmderr = s.cmderr ∧ t.flg = s.flg ∧ t.comp = s.comp ∧ t.tele = s.tele ∧ t.tx = s.tx ∧ t.sess = s.sess ∧
      t.port = s.port ∧ t.resets = s.resets := by
  unfold OnlyParser at h
  rw [h]
  exact ⟨rfl, rfl, rfl, rfl, rfl, rfl, rfl, rfl⟩

/-- Running a longer list of instructions is running its parts. -/
theorem execAll_append (a b : List Instr) (s : State) :
    execAll (a ++ b) s =
      (match execAll a s with | .next t => execAll b t | .fault f => .fault f | .refused r => .refused r) := by
  induction a generalizing s with
  | nil => rfl
  | cons i a ih =>
    simp only [List.cons_append, execAll]
    cases exec i s <;> simp [ih]

/-- `RXBYTE` of each byte in turn is streaming the buffer. -/
theorem execAll_rxbyte {bs : List Byte} {s t : State} (h : rxBytes bs s = .ok t) :
    execAll (bs.map .rxbyte) s = .next t := by
  induction bs generalizing s with
  | nil =>
    simp only [rxBytes, Except.ok.injEq] at h
    rw [h]; rfl
  | cons b bs ih =>
    simp only [rxBytes] at h
    cases hb : rxByte b s with
    | ok u =>
      rw [hb] at h
      simp only [List.map_cons, execAll, exec, execRxbyte, hb, finish]
      exact ih h
    | error f => rw [hb] at h; cases h

/-- After a verdict a byte changes nothing (R126). -/
theorem rxByte_verdict {s : State} (h : s.parser.fsm.verdict = true) (b : Byte) : rxByte b s = .ok s := by
  have := rxBytes_verdict h [b]
  simp only [rxBytes] at this
  cases hb : rxByte b s with
  | ok u => rw [hb] at this; simpa using this
  | error f => rw [hb] at this; cases this

/-- The state after one payload byte that is not past `PAY` (R122). -/
def storedByte (b : Byte) (f : Fsm) (s : State) : State :=
  { s with parser := { s.parser with
      pay := Mem.write s.parser.pay s.parser.cnt.toNat b, sum := s.parser.sum + b, cnt := s.parser.cnt + 1, fsm := f } }

theorem rxByte_payl {s : State} (h : s.parser.fsm = .payl) (hc : s.parser.cnt.toNat < paySize) (b : Byte) :
    rxByte b s =
      .ok (storedByte b (if s.parser.cnt.toNat + 1 + 1 = s.parser.lenr.toNat then .csum else .payl) s) := by
  simp [rxByte, h, rxPayload, hc, storedByte]

/-- Fewer bytes than the frame's payload leave the parser in `PAYL`. -/
theorem rxBytes_payl_part (bs : List Byte) {s : State} (h : s.parser.fsm = .payl)
    (hl : s.parser.cnt.toNat + 1 + bs.length < s.parser.lenr.toNat) :
    ∃ t, rxBytes bs s = .ok t ∧ t.parser.fsm = .payl := by
  induction bs generalizing s with
  | nil => exact ⟨s, rfl, h⟩
  | cons b bs ih =>
    have hL := s.parser.lenr.isLt
    simp only [List.length_cons] at hl
    have hcnt : (s.parser.cnt + 1).toNat = s.parser.cnt.toNat + 1 := by
      rw [BitVec.toNat_add]
      simp
      omega
    rw [rxBytes, rxByte_payl h (by unfold paySize; omega), if_neg (by omega)]
    exact ih rfl (by simp only [storedByte]; rw [hcnt]; omega)

/-- The whole rest of the payload moves the parser on to `CSUM`, with the bytes in `PAY` and added to `SUM` (R122, R125). -/
theorem rxBytes_payl_full (bs : List Byte) {s : State} (h : s.parser.fsm = .payl) (hne : bs ≠ [])
    (hl : s.parser.cnt.toNat + 1 + bs.length = s.parser.lenr.toNat) :
    ∃ t, rxBytes bs s = .ok t ∧ t.parser.fsm = .csum ∧ t.parser.lenr = s.parser.lenr ∧
      t.parser.sum = s.parser.sum + sum8 bs ∧ t.parser.errc = s.parser.errc ∧ t.parser.plen = s.parser.plen ∧
      ∀ k, Mem.read t.parser.pay k =
        if s.parser.cnt.toNat ≤ k ∧ k < s.parser.cnt.toNat + bs.length then bs[k - s.parser.cnt.toNat]?
        else Mem.read s.parser.pay k := by
  induction bs generalizing s with
  | nil => simp at hne
  | cons b bs ih =>
    have hL := s.parser.lenr.isLt
    simp only [List.length_cons] at hl
    have hc : s.parser.cnt.toNat < paySize := by unfold paySize; omega
    have hcnt : (s.parser.cnt + 1).toNat = s.parser.cnt.toNat + 1 := by
      rw [BitVec.toNat_add]
      simp
      omega
    rw [rxBytes, rxByte_payl h hc]
    cases bs with
    | nil =>
      rw [if_pos (by simpa using hl)]
      refine ⟨_, rfl, rfl, rfl, by simp [storedByte], rfl, rfl, ?_⟩
      intro k
      simp only [storedByte, Mem.read_write]
      by_cases c : k = s.parser.cnt.toNat
      · simp [c]
      · rw [if_neg c, if_neg (by simp; omega)]
    | cons b' bs =>
      rw [if_neg (by simp at hl; omega)]
      obtain ⟨t, h1, h2, h3, h4, h5, h6, h7⟩ :=
        ih (s := storedByte b .payl s) rfl (by simp) (by simp only [storedByte]; rw [hcnt]; omega)
      refine ⟨t, h1, h2, h3, by rw [h4]; simp [storedByte, BitVec.add_assoc], h5, h6, ?_⟩
      intro k
      rw [h7]
      simp only [storedByte, hcnt, Mem.read_write]
      by_cases c : k = s.parser.cnt.toNat
      · subst c
        simp
      · by_cases c2 : s.parser.cnt.toNat + 1 ≤ k ∧ k < s.parser.cnt.toNat + 1 + (b' :: bs).length
        · rw [if_pos c2, if_pos (by simp at c2 ⊢; omega),
            show k - s.parser.cnt.toNat = (k - (s.parser.cnt.toNat + 1)) + 1 by omega]
          simp
        · rw [if_neg c2, if_neg c, if_neg (by simp at c2 ⊢; omega)]

/-- `Validate` without the magic (R120). -/
theorem validate_of_not_magic {buf : List Byte} (h : buf.take 4 ≠ magic) : validate buf = .error .headerMismatch := by
  simp [validate, h]

/-- `Validate` of the magic, a length byte and the rest (R120). -/
theorem validate_magic (l : Byte) (rest : List Byte) :
    validate (magic ++ l :: rest) =
      if l.toNat = 0 then .error .truncated
      else if rest.length < l.toNat then .error .truncated
      else if sum8 (rest.take (l.toNat - 1)) ≠ rest.getD (l.toNat - 1) 0 then .error .checksumMismatch
      else .ok (rest.take (l.toNat - 1)) := by
  have hlen : (magic ++ l :: rest).length = 5 + rest.length := by simp [magic]; omega
  have h4 : (magic ++ l :: rest).getD 4 0 = l := by simp [magic]
  have h5 : (magic ++ l :: rest).drop 5 = rest := by simp [magic]
  unfold validate
  rw [hlen, if_neg (by simp [magic]; omega), if_neg (by omega), h4, h5]
  dsimp only
  by_cases c : l.toNat = 0
  · rw [if_pos c, if_pos c]
  · have hx : (magic ++ l :: rest).getD (5 + l.toNat - 1) 0 = rest.getD (l.toNat - 1) 0 := by
      rw [show 5 + l.toNat - 1 = (l.toNat - 1) + 1 + 1 + 1 + 1 + 1 by omega]
      simp [magic]
    rw [if_neg c, if_neg c, hx]
    by_cases c2 : rest.length < l.toNat
    · rw [if_pos c2, if_pos (by omega)]
    · rw [if_neg c2, if_neg (by omega)]

end Sys2Proof.Machine
end

