-- ==== Sys2Proof/Tests/Slice0.lean ====
section
/-! SUPPORT. Small tests: ill-formed terms refused, words of the spec decoded, one step of each instruction against the
spec's vectors (95_test_vectors.md), and a witness for the hypotheses of each statement that has some. -/

namespace Sys2Proof.Tests

open Sys2Proof Sys2Proof.Machine

/-! ## Helpers -/

/-- A record of zeros, to build small states from. -/
def rec0 : Telemetry :=
  { pv := 0, bv := 0, cc := ⟨0, 0, 1⟩, cp := 0, bcap := 0, bcells := 0, btype := 0, btempV := false, btemp := 0, temp := [0],
    eday := ⟨0, 0, 1⟩, etot := ⟨0, 0, 1⟩, run := ⟨0, 0, 1⟩, year := 0, mon := 0, day := 0, hour := 0, min := 0, sec := 0,
    wday := 0, sBtype := 0, sSysv := 0, sChgpct := 0, sLowv := 0, sStrongv := 0, sFloatv := 0, sDcout := 0, sOnoff := 0,
    sRecovv := 0, vmaj := 0, vmin := 0, mtype := 0 }

/-- A state like reset's, with every unspecified register at 0. -/
def s0 : State :=
  { parser := { fsm := .m0, lenr := 0, cnt := 0, sum := 0, plen := 0, errc := .noError, pay := [] }
    cmderr := false
    flg := ⟨0, 0, 0, 0, 0, 0⟩
    comp := ⟨0, 0, 0, 0⟩
    tele := { tvalid := false, derr := .noError, record := rec0 }
    tx := { txb := [], txlen := 0 }
    sess := { ps := .idle, pserr := .noError, retry := 0 }
    port := []
    resets := 0 }

/-- `s0` with other parser registers. -/
def withParser (fsm : Fsm) (lenr cnt sum : Byte) (pay : Mem) : State :=
  { s0 with parser := { s0.parser with fsm := fsm, lenr := lenr, cnt := cnt, sum := sum, pay := pay } }

/-- `s0` with another session state. -/
def withPs (ps : Ps) : State := { s0 with sess := { s0.sess with ps := ps } }

/-- One field of the next state of an instruction. -/
def after {α : Type} (i : Instr) (s : State) (f : State → α) : Option α :=
  match exec i s with
  | .next t => some (f t)
  | .fault _ => none
  | .refused _ => none

/-- One field of the result of an operation under given parameters. -/
def result {α : Type} (e : Except Fault State) (f : State → α) : Option α :=
  match e with
  | .ok t => some (f t)
  | .error _ => none

/-- The test layout `TL1` (95_test_vectors.md; invented there for testing only). -/
def tl1 : Layout :=
  { st1 := 0, st2 := 1, wr1 := 3, wr2 := 4, ft1 := 6, ft2 := 7, pv := 8, bv := 10, ccI := .one 12, ccF := .one 13,
    bcap := 14, bcells := 15, btype := 16, btemp := 17, temp0 := 18, tempMore := [], edayI := .two 19, edayF := .one 21,
    etotI := .two 22, etotF := .one 24, runI := .two 25, runF := .one 27, year := 28, mon := 30, day := 31, hour := 32,
    min := 33, sec := 34, wday := 35, cfgBtype := ⟨.one 36, .unit⟩, cfgSysv := ⟨.one 37, .unit⟩,
    cfgChgpct := ⟨.one 38, .unit⟩, cfgLowv := ⟨.two 39, .tenth⟩, cfgStrongv := ⟨.two 41, .tenth⟩,
    cfgFloatv := ⟨.two 43, .tenth⟩, cfgDcout := ⟨.one 45, .unit⟩, cfgOnoff := ⟨.one 46, .unit⟩,
    cfgRecovv := ⟨.two 47, .tenth⟩, vmaj := 49, vmin := 50, mtype := 51 }

/-- The test bindings of 95_test_vectors.md: `TL1`, masks `1F` and `01`, `MAX_RETRIES` 2, ties to even (R197's default). -/
def testParams : Params :=
  { layout := tl1, wr2 := 0x1F, ft2Bit := 0, preamble := Vector.replicate 11 0, maxRetries := 2, pollInterval := 1
    nameWr1 := Vector.replicate 8 "", nameWr2 := Vector.replicate 5 "", nameFt1 := Vector.replicate 8 ""
    tieUp := fun _ _ _ q => q % 2 == 1 }

/-- The payload of program P4. -/
def p4 : List Byte :=
  [0x0B, 0x02, 0xFF, 0x81, 0xF5, 0xFF, 0x00, 0xFE, 0x64, 0x00, 0x96, 0x00, 0x0A, 0x05, 0x64, 0x06, 0x01, 0xFF, 0x23] ++
  [0x03, 0x00, 0x46, 0xD2, 0x04, 0x05, 0x2C, 0x01, 0x1E, 0xE8, 0x07, 0x03, 0x0F, 0x09, 0x05, 0x1E, 0x05] ++
  [0x01, 0x0C, 0x50, 0x6C, 0x00, 0x90, 0x00, 0x8A, 0x00, 0x00, 0x02, 0x78, 0x00, 0x01, 0x07, 0x03, 0x00, 0x00, 0x00, 0x00]

/-- The window of P4's payload. -/
def w4 : Window := fun a => p4.getD a.val 0

/-- A state that holds P4's payload as its validated frame. -/
def s4 : State :=
  { s0 with parser :=
      { fsm := .ok, lenr := 57, cnt := 56, sum := 0x1E, plen := 56, errc := .noError, pay := Mem.writeAll [] 0 p4 } }

/-- A state with every register at a plain value and as many temperatures as the block has, which meets the invariant. -/
def sInv : State := { s0 with tele := { s0.tele with record := { rec0 with temp := List.replicate (nTempOther Config.params) 0 } } }

/-- `s0` with a parser verdict. -/
def withVerdict (fsm : Fsm) (plen : Byte) : State := { s0 with parser := { s0.parser with fsm := fsm, plen := plen } }

/-! ## Well-formedness: the good frame V2, and one ill-formed term for each check -/

theorem test_wf_good_frame : (Instr.wireResp [0x4D, 0x56, 0x4D, 0x50, 4, 1, 2, 3, 6]).wf = true := by decide

theorem test_wf_bad_magic : (Instr.wireResp [0x4D, 0x56, 0x4D, 0x51, 4, 1, 2, 3, 6]).wf = false := by decide

theorem test_wf_zero_length : (Instr.wireResp [0x4D, 0x56, 0x4D, 0x50, 0]).wf = false := by decide

theorem test_wf_short_frame : (Instr.wireResp [0x4D, 0x56, 0x4D, 0x50, 5, 1, 2, 3, 6]).wf = false := by decide

theorem test_wf_bad_checksum : (Instr.wireResp [0x4D, 0x56, 0x4D, 0x50, 4, 1, 2, 7, 6]).wf = false := by decide

/-! ## Decoding: words written out from R97 and R98 (and the programs P1 to P6) -/

theorem test_decode_start : decode (.cmd 0x0100000000000000) = .ok .start := by decide

theorem test_decode_rxbyte : decode (.cmd 0x0200000000000056) = .ok (.rxbyte 0x56) := by decide

theorem test_decode_rxend : decode (.cmd 0x0300000000000000) = .ok .rxend := by decide

theorem test_decode_decst1 : decode (.cmd 0x100000000000000B) = .ok (.decst1 0x0B) := by decide

theorem test_decode_decst2 : decode (.cmd 0x11000000000000FE) = .ok (.decst2 0xFE) := by decide

theorem test_decode_decwr1 : decode (.cmd 0x1200000000000081) = .ok (.decwr1 0x81) := by decide

theorem test_decode_decwr2 : decode (.cmd 0x13000000000000F5) = .ok (.decwr2 0xF5) := by decide

theorem test_decode_decft1 : decode (.cmd 0x1400000000000000) = .ok (.decft1 0x00) := by decide

theorem test_decode_decft2 : decode (.cmd 0x15000000000000FE) = .ok (.decft2 0xFE) := by decide

theorem test_decode_compose : decode (.cmd 0x2000000000050046) = .ok (.compose 5 70) := by decide

theorem test_decode_decode : decode (.cmd 0x3000000000000000) = .ok .decode := by decide

theorem test_decode_encpoll : decode (.cmd 0x4000000000000000) = .ok .encpoll := by decide

theorem test_decode_encclk : decode (.cmd 0x4107E8030F09051E) = .ok (.encclk 2024 3 15 9 5 30) := by decide

theorem test_decode_pspoll : decode (.cmd 0x5000000000000000) = .ok .pspoll := by decide

theorem test_decode_pscheck : decode (.cmd 0x5100000000000001) = .ok (.pscheck true) := by decide

theorem test_decode_psval : decode (.cmd 0x5200000000000000) = .ok .psval := by decide

/-- Vector X4: the reserved bits of `START` are ignored. -/
theorem test_decode_reserved_bits : decode (.cmd 0x01FFFFFFFFFFFFFF) = .ok .start := by decide

/-- Vectors X1 to X3: undefined opcodes. -/
theorem test_decode_undefined : decode (.cmd 0x0000000000000000) = .error (.undefinedOpcode 0x00) ∧
    decode (.cmd 0x0400000000000000) = .error (.undefinedOpcode 0x04) ∧
    decode (.cmd 0xFF00000000000000) = .error (.undefinedOpcode 0xFF) := by decide

/-- The wire rows by their table words: the match of WIRE_RESP (its frame then has the length byte 0), the literal of
WIRE_POLL, and 18 bytes with the fields of vector E2 behind a preamble of zeros. -/
theorem test_decode_wireResp :
    decodeTableWord 32 0x4D564D50 = some (.wireResp [0x4D, 0x56, 0x4D, 0x50, 0]) := by decide

theorem test_decode_wirePoll : decodeTableWord 88 0x434D4842064D5050544842 = some .wirePoll := by decide

theorem test_decode_wireSetclk :
    decodeTableWord 144 0x07E8030F09051E = some (.wireSetclk 2024 3 15 9 5 30) := by decide

theorem test_decode_not_a_frame : decode (.rx [0x4D, 0x4D]) = .error (.notMagic [0x4D, 0x4D]) ∧
    decode (.tx [0x4D]) = .error (.notOutbound [0x4D]) := by decide

/-! ## The parser -/

theorem test_validate_v1_empty_payload : validate [0x4D, 0x56, 0x4D, 0x50, 1, 0] = .ok [] := by decide

theorem test_validate_v3_sum_wraps : validate [0x4D, 0x56, 0x4D, 0x50, 3, 0xFF, 0xFF, 0xFE] = .ok [0xFF, 0xFF] := by decide

theorem test_validate_v8_no_checksum_byte :
    validate [0x4D, 0x56, 0x4D, 0x50, 4, 1, 2, 3] = .error .truncated := by decide

theorem test_validate_v11_trailing :
    validate [0x4D, 0x56, 0x4D, 0x50, 4, 1, 2, 3, 6, 0xAA, 0xBB] = .ok [1, 2, 3] := by decide

theorem test_validate_v15_short_prefix : validate [0x4D, 0x56, 0x4D] = .error .headerMismatch := by decide

theorem test_frameOf_v2 : frameOf [1, 2, 3] = [0x4D, 0x56, 0x4D, 0x50, 4, 1, 2, 3, 6] := by decide

/-- R121's example: from `FSM = ERR, ERRC = 3`. -/
theorem test_start_after_error :
    after .start { s0 with parser := { s0.parser with fsm := .err, errc := .checksumMismatch } }
      (fun t => (t.parser.fsm, t.parser.errc)) = some (.m0, .noError) := by decide

/-- V2's trace, third payload byte: the last one moves on to `CSUM`. -/
theorem test_rxbyte_last_payload_byte :
    after (.rxbyte 3) (withParser .payl 4 2 3 [(0, 1), (1, 2)]) (fun t => (t.parser.fsm, t.parser.cnt, t.parser.sum,
      t.parser.pay)) = some (.csum, 3, 6, [(0, 1), (1, 2), (2, 3)]) := by decide

/-- R122's example: `FSM = CSUM, SUM = 6, LENR = 4`. -/
theorem test_rxbyte_checksum : after (.rxbyte 6) (withParser .csum 4 3 6 [])
    (fun t => (t.parser.fsm, t.parser.plen)) = some (.ok, 3) := by decide

/-- V7: the magic alone. -/
theorem test_rxend_after_magic : after .rxend (withParser .len 0 0 0 [])
    (fun t => (t.parser.fsm, t.parser.errc)) = some (.err, .truncated) := by decide

/-- V16: the empty buffer. -/
theorem test_rxend_empty : after .rxend s0 (fun t => (t.parser.fsm, t.parser.errc)) = some (.err, .headerMismatch) := by
  decide

/-- V18: a one-byte payload. -/
theorem test_wireResp_v18 : after (.wireResp [0x4D, 0x56, 0x4D, 0x50, 2, 0x0B, 0x0B]) s0
    (fun t => (t.parser.fsm, t.parser.plen, t.parser.pay)) = some (.ok, 1, [(0, 0x0B)]) := by decide

/-- R28 and program P2: `STATUS` after the checksum error and the refused `DECODE`. -/
theorem test_status_p2 : State.status { s0 with
      cmderr := true
      parser := { s0.parser with fsm := .err, errc := .checksumMismatch } } = 0x000000B8 := by decide

/-- R28 and program P6's end state. -/
theorem test_status_p6 : State.status { s0 with
      cmderr := true
      sess := { s0.sess with ps := .done }
      tele := { s0.tele with tvalid := true }
      parser := { s0.parser with fsm := .ok, plen := 56 } } = 0x00313887 := by decide

/-! ## Bits -/

/-- B2: bits 7 to 4 are ignored. -/
theorem test_decst1 : after (.decst1 0xFB) s0 (fun t => t.flg) = some ⟨0x0B, 0, 0, 0, 0, 0⟩ := by decide

/-- B5. -/
theorem test_decst2 : after (.decst2 0xFE) s0 (fun t => (t.flg, t.flg.status)) =
    some (⟨0, 0x02, 0, 0, 0, 0⟩, ⟨false, false, false, false, true, false⟩) := by decide

/-- B8. -/
theorem test_decwr1 : after (.decwr1 0x81) s0 (fun t => t.flg) = some ⟨0, 0, 0x81, 0, 0, 0⟩ := by decide

/-- B10, under the test mask. -/
theorem test_decwr2 : (decodeRole testParams .wr2 0xF5 s0).flg = ⟨0, 0, 0, 0x15, 0, 0⟩ := by decide

/-- B12. -/
theorem test_decft1 : after (.decft1 0xA5) s0 (fun t => t.flg) = some ⟨0, 0, 0, 0, 0xA5, 0⟩ := by decide

/-- B13, under the test mask. -/
theorem test_decft2 : (decodeRole testParams .ft2 0xFE s0).flg = ⟨0, 0, 0, 0, 0, 0⟩ ∧
    ((decodeRole testParams .ft2 0x01 s0).flg.fault testParams).batteryVoltageInputError = true := by decide

/-- S4, the document's example. -/
theorem test_decodeBits_status : decodeBits 0x0B (tableOf testParams .st1) =
    [("chargingTempLimit", true), ("batteryVoltageFull", false), ("chargingStatus", true), ("dcOutputStatus", true)] := by
  decide

/-! ## Composer -/

/-- Q2. -/
theorem test_compose : after (.compose 5 70) s0 (fun t => t.comp) = some ⟨5, 70, 2, 570⟩ := by decide

/-- Q14: the largest operands; `CM` needs 33 bits. -/
theorem test_compose_largest : after (.compose 65535 65535) s0 (fun t => t.comp) = some ⟨65535, 65535, 5, 6553565535⟩ := by
  decide

theorem test_compose_text : composeText 5 70 = ['5', '.', '7', '0'] ∧ (compose 5 70).text = ['5', '.', '7', '0'] ∧
    composeText 0 10 = ['0', '.', '1', '0'] ∧ (compose 7 0).text = ['7', '.', '0'] := by decide

/-- R16's example, and no digit after the point. -/
theorem test_exact_decimal_text : ExactDecimal.text ⟨57, 1⟩ = ['5', '.', '7'] ∧ ExactDecimal.text ⟨570, 2⟩ = ['5', '.', '7', '0'] ∧
    ExactDecimal.text ⟨100, 0⟩ = ['1', '0', '0'] := by decide

/-! ## Telemetry -/

/-- P4: flags, scalars, composed fields and the charging power of the document's example. -/
theorem test_decode_p4_flags : result (decodeOp testParams s4) (fun t => (t.flg, t.tele.tvalid, t.tele.derr)) =
    some (⟨0x0B, 0x02, 0x81, 0x15, 0x00, 0x00⟩, true, .noError) := by decide

theorem test_decode_p4_record : decodeRecord testParams w4 rec0 =
    { pv := 100, bv := 150, cc := ⟨10, 5, 1⟩, cp := 157500, bcap := 100, bcells := 6, btype := 1, btempV := false,
      btemp := 0, temp := [35], eday := ⟨3, 70, 2⟩, etot := ⟨1234, 5, 1⟩, run := ⟨300, 30, 2⟩, year := 2024, mon := 3,
      day := 15, hour := 9, min := 5, sec := 30, wday := 5, sBtype := 1, sSysv := 12, sChgpct := 80, sLowv := 108,
      sStrongv := 144, sFloatv := 138, sDcout := 0, sOnoff := 2, sRecovv := 120, vmaj := 1, vmin := 7, mtype := 3 } := by
  decide

/-- T10: 55 payload bytes are too few. -/
theorem test_decode_truncated :
    after .decode { s0 with parser := { s0.parser with fsm := .ok, lenr := 56, cnt := 55, plen := 55 } }
      (fun t => (t.tele.derr, t.tele.tvalid, t.cmderr)) = some (.truncated, false, false) := by decide

/-- T11: no frame. -/
theorem test_decode_refused : after .decode s0 (fun t => (t.cmderr, t.tele.derr)) = some (true, .noError) := by decide

/-- P-3, P-5, P-6 (a tie), P-8, P-10. -/
theorem test_round3 : round3 testParams.tieUp 133 2 347 3 = 31215 ∧ round3 testParams.tieUp 133 2 349 3 = 31242 ∧
    round3 testParams.tieUp 133 2 345 3 = 31188 ∧ round3 (fun _ _ _ _ => true) 133 2 345 3 = 31189 ∧
    round3 testParams.tieUp 1 0 1005 4 = 10 ∧ round3 testParams.tieUp 65535 65535 65535 5 = 429487917336 := by decide

/-- T7 and T9. -/
theorem test_timestamp : (decodeRecord testParams w4 rec0).timestamp =
    ['2', '0', '2', '4', '-', '0', '3', '-', '1', '5', ' ', '0', '9', ':', '0', '5', ':', '3', '0'] := by decide

theorem test_timestamp_long : Telemetry.timestamp { rec0 with year := 65535, mon := 255, day := 1, hour := 2, min := 3, sec := 4 } =
      ['6', '5', '5', '3', '5', '-', '2', '5', '5', '-', '0', '1', ' ', '0', '2', ':', '0', '3', ':', '0', '4'] := by
  decide

/-- P4: version 1.7, low voltage 10.8, battery voltage 15.0. -/
theorem test_views : (decodeRecord testParams w4 rec0).versionText = ['1', '.', '7'] ∧
    ((decodeRecord testParams w4 rec0).storedConfig testParams)[3]? = some ⟨108, 1⟩ ∧
    (decodeRecord testParams w4 rec0).batteryVoltage.text = ['1', '5', '.', '0'] ∧
    (decodeRecord testParams w4 rec0).chargingPower.numEq ⟨1575, 1⟩ = true := by decide

/-! ## Encoder -/

/-- E1. -/
theorem test_encpoll : after .encpoll s0 (fun t => (t.tx.txlen, Mem.read t.tx.txb 4, Mem.read t.tx.txb 11)) =
    some (11, some 0x06, none) := by decide

theorem test_outbound : after .encpoll s0 (fun t => t.tx.outbound) = some (pollLiteral.map some) := by decide

/-- E2, E5: the year high byte first. -/
theorem test_encclk : after (.encclk 2024 3 15 9 5 30) s0 (fun t => (t.tx.txlen, Mem.read t.tx.txb 11, Mem.read t.tx.txb 12,
    Mem.read t.tx.txb 17)) = some (18, some 0x07, some 0xE8, some 0x1E) := by decide

/-! ## Session, under `MAX_RETRIES` 2 -/

/-- S-1 and S-6. -/
theorem test_pspoll : after .pspoll s0 (fun t => (t.sess, t.tx.txlen, t.cmderr)) = some (⟨.await, .noError, 0⟩, 11, false) ∧
    after .pspoll (withPs .await) (fun t => (t.sess.ps, t.cmderr)) = some (.await, true) := by decide

/-- S-2 and S-3. -/
theorem test_pscheck_counts :
    (pollCheck testParams false { s0 with sess := ⟨.await, .noError, 1⟩ }).sess = ⟨.await, .noError, 2⟩ ∧
    (pollCheck testParams false { s0 with sess := ⟨.await, .noError, 2⟩ }).sess = ⟨.failed, .timeoutError, 3⟩ := by decide

/-- S-4 and S-5. -/
theorem test_pscheck_data : after (.pscheck true) (withPs .await) (fun t => (t.sess.ps, t.parser.fsm)) =
      some (.validating, .m0) ∧
    after (.pscheck false) s0 (fun t => (t.cmderr, t.sess.ps)) = some (true, .idle) := by decide

/-- S-7, and S-9's last operation. -/
theorem test_psval : after .psval (withPs .validating) (fun t => (t.cmderr, t.sess.ps)) = some (true, .validating) ∧
    result (pollValidate testParams { s0 with
        sess := ⟨.validating, .noError, 0⟩
        parser := { s0.parser with fsm := .ok, lenr := 4, cnt := 3, plen := 3 } })
      (fun t => (t.sess.ps, t.sess.pserr, t.tele.derr)) = some (.failed, .truncated, .truncated) := by decide

/-- D25 under `MAX_RETRIES` 2: the count 3 needs two bits. -/
theorem test_wRetry : wRetry testParams = 2 := by decide

/-- R106: the cycle with one silent check, and the one whose session fails at the third. -/
theorem test_pollCycleOps : pollCycleOps testParams 1 [7] =
      [.pspoll, .pscheck false, .pscheck true, .rxbyte 7, .rxend, .psval] ∧
    pollCycleOps testParams 3 [7] = [.pspoll, .pscheck false, .pscheck false, .pscheck false] := by decide

/-! ## The step -/

/-- The first step after reset with `ENCPOLL` placed. -/
theorem test_step_first : (match step (State.reset.withFetchWord 64 0x4000000000000000) with
    | .next t => some t.tx.txlen
    | _ => none) = some 11 := by decide

/-- X1: an undefined opcode sets `CMDERR`. -/
theorem test_step_undefined : (match step (s0.withFetchWord 64 0) with
    | .next t => some (t.cmderr, t.parser.fsm)
    | _ => none) = some (true, .m0) := by decide

/-- R103: a buffer with a wrong magic. -/
theorem test_step_bad_magic : (match step { s0 with port := [.request (.rx [0x4D, 0x4D])] } with
    | .next t => some (t.parser.fsm, t.parser.errc, t.cmderr)
    | _ => none) = some (.err, .headerMismatch, false) := by decide

/-! ## Witnesses: for each statement with hypotheses, a state and operands that meet them all -/

theorem witness_StepRunsDecodedInstruction :
    (s0.withFetchWord 64 0x4000000000000000).port = .request (.cmd 0x4000000000000000) :: [] ∧
      decode (.cmd 0x4000000000000000) = .ok .encpoll := by decide

theorem witness_IdleStepChangesNothing : s0.port = [] := rfl

theorem witness_ResetEventRestoresSpecValues : ({ s0 with cmderr := true, port := [.reset] } : State).port = .reset :: [] := rfl

/-- Opcodes at the edges of the map's gaps. -/
theorem witness_UndefinedOpcodesAreRefused :
    ({ s0 with port := [.request (.cmd 0)] } : State).port = .request (.cmd 0) :: [] ∧ opOf 0 ∉ definedOps ∧
      opOf 0x0400000000000000 ∉ definedOps ∧ opOf 0x1600000000000000 ∉ definedOps ∧
      opOf 0x5300000000000000 ∉ definedOps ∧ opOf 0xFF00000000000000 ∉ definedOps := by decide

theorem witness_EveryReceivedBufferGetsItsVerdict :
    ({ s0 with port := [.request (.rx [])] } : State).port = .request (.rx []) :: [] := rfl

theorem witness_DecodeOfEncodeIsIdentity : (Instr.wireResp [0x4D, 0x56, 0x4D, 0x50, 1, 0]).wf = true ∧
    (Instr.compose 65535 65535).wf = true ∧ (Instr.wireSetclk 65535 0xFF 0xFF 0xFF 0xFF 0xFF).wf = true := by decide

theorem witness_DecodedWordIsEncodedOnUsedBits : decode (.cmd 0x51FFFFFFFFFFFFFF) = .ok (.pscheck true) := by decide

theorem witness_ReservedOperandBitsAreIgnored :
    opOf 0x02FFFFFFFFFFFF4D = opOf 0x020000000000004D ∧
      (0x02FFFFFFFFFFFF4D : CmdWord) &&& operandMask (opOf 0x02FFFFFFFFFFFF4D) =
        0x020000000000004D &&& operandMask (opOf 0x02FFFFFFFFFFFF4D) := by decide

/-- The last offset of `PAY`, the shortest length in `CSUM`, and a state outside both. -/
theorem witness_RxbyteFollowsParserState :
    (withParser .payl 255 253 0 []).parser.cnt.toNat ≤ 253 ∧ (withParser .payl 255 253 0 []).parser.fsm ≠ .csum ∧
      (withParser .csum 1 0 0 []).parser.lenr ≠ 0 ∧ (withParser .csum 1 0 0 []).parser.fsm ≠ .payl ∧
      s0.parser.fsm ≠ .payl ∧ s0.parser.fsm ≠ .csum := by decide

theorem witness_RxbyteZeroLengthWraps : (withParser .csum 0 0 0 []).parser.fsm = .csum ∧
    (withParser .csum 0 0 0 []).parser.lenr = 0 := by decide

theorem witness_RxbytePastPayStops : (withParser .payl 255 254 0 []).parser.fsm = .payl ∧
    254 ≤ (withParser .payl 255 254 0 []).parser.cnt.toNat := by decide

theorem witness_VerdictIsFinal : (withVerdict .ok 3).parser.fsm.verdict = true ∧
    exec .rxend (withVerdict .ok 3) = .next (withVerdict .ok 3) ∧ Instr.rxend ≠ .start ∧ Instr.rxend ≠ .pscheck true ∧
    ∀ buf, Instr.rxend ≠ .wireResp buf := ⟨rfl, rfl, by decide, by decide, fun _ h => nomatch h⟩

theorem witness_ChecksumRoundTripAndBitFlip : (List.replicate 254 (0xFF : Byte)).length ≤ 254 ∧
    253 < (List.replicate 254 (0xFF : Byte)).length ∧ 7 < 8 := by
  simp only [List.length_replicate]
  decide

theorem witness_HeaderGate : ([0x4D, 0x56, 0x4D] : List Byte).take 4 ≠ [0x4D, 0x56, 0x4D, 0x50] ∧
    ([] : List Byte).take 4 ≠ [0x4D, 0x56, 0x4D, 0x50] := by decide

/-- Exactly the magic, and one byte short of `5 + L`. -/
theorem witness_ShortBufferIsTruncated :
    ([0x4D, 0x56, 0x4D, 0x50] : List Byte).take 4 = [0x4D, 0x56, 0x4D, 0x50] ∧
      ([0x4D, 0x56, 0x4D, 0x50] : List Byte).length = 4 ∧
      ([0x4D, 0x56, 0x4D, 0x50, 2, 7] : List Byte)[4]? = some 2 ∧
      ([0x4D, 0x56, 0x4D, 0x50, 2, 7] : List Byte).length < 5 + (2 : Byte).toNat := by decide

theorem witness_TrailingBytesAreIgnored :
    ([0x4D, 0x56, 0x4D, 0x50, 1, 0] : List Byte)[4]? = some 1 ∧
      ([0x4D, 0x56, 0x4D, 0x50, 1, 0] : List Byte).length = 5 + (1 : Byte).toNat ∧
      ([0x4D, 0x56, 0x4D, 0x50, 0] : List Byte).length = 5 + (0 : Byte).toNat := by decide

theorem witness_ReorderedPayloadStillValidates : ([1, 2] : List Byte).Perm [2, 1] ∧ ([1, 2] : List Byte).length ≤ 254 :=
  ⟨.swap 2 1 [], by decide⟩

theorem witness_FlagRegistersAgreeWithTables :
    ("chargingTempLimit", true) ∈ decodeBits 0x08 (tableOf testParams .st1) ∧
      (∀ name, (name, 4) ∉ tableOf testParams .st1) := by
  refine ⟨by decide, fun name h => ?_⟩
  simp [tableOf] at h

theorem witness_MasksHaveTheirBitCounts : popcount 0xF8 = 5 := by decide

theorem witness_DecodeWithoutFrameIsRefused : s0.parser.fsm ≠ .ok := by decide

theorem witness_DecodeOfShortPayloadIsTruncated : (withVerdict .ok 55).parser.fsm = .ok ∧
    (withVerdict .ok 55).parser.plen.toNat < 56 := by decide

/-- A payload of exactly 56 bytes: for each statement about a decodable state. -/
theorem witness_Decodable : Decodable s4 w4 := ⟨rfl, by decide, by decide⟩

theorem witness_DecodeTwiceIsDecodeOnce :
    exec .decode (withVerdict .ok 55) = .next (raise .tele .truncated (withVerdict .ok 55)) := rfl

theorem witness_DecodeDependsOnPayloadOnly : Decodable s4 w4 ∧ Decodable { s4 with cmderr := true, resets := 7 } w4 :=
  ⟨witness_Decodable, witness_Decodable⟩

theorem witness_TimestampLength : let t : Telemetry := { rec0 with year := 9999, mon := 99, day := 99, hour := 99, min := 99, sec := 99 }
    t.year.toNat ≤ 9999 ∧ t.mon.toNat ≤ 99 ∧ t.day.toNat ≤ 99 ∧ t.hour.toNat ≤ 99 ∧ t.min.toNat ≤ 99 ∧
      t.sec.toNat ≤ 99 := by decide

theorem witness_PspollStartsASession : (withPs .await).sess.ps = .await ∧ (withPs .validating).sess.ps = .validating ∧
    s0.sess.ps = .idle ∧ (withPs .done).sess.ps = .done ∧ (withPs .failed).sess.ps = .failed := by decide

theorem witness_PscheckCountsOrValidates : s0.sess.ps ≠ .await ∧ (withPs .await).sess.ps = .await := by decide

/-- Each clause: no session, no verdict yet, the parser's error, 55 bytes, 56 bytes. -/
theorem witness_PsvalJudgesTheFrame :
    s0.sess.ps ≠ .validating ∧
      ((withPs .validating).sess.ps = .validating ∧ (withPs .validating).parser.fsm ≠ .ok ∧
        (withPs .validating).parser.fsm ≠ .err) ∧
      (let s : State := { withVerdict .err 0 with sess := ⟨.validating, .noError, 0⟩ };
        s.sess.ps = .validating ∧ s.parser.fsm = .err) ∧
      (let s : State := { withVerdict .ok 55 with sess := ⟨.validating, .noError, 0⟩ };
        s.sess.ps = .validating ∧ s.parser.fsm = .ok ∧ s.parser.plen.toNat < 56) ∧
      ({ s4 with sess := ⟨.validating, .noError, 0⟩ } : State).sess.ps = .validating ∧
      Decodable { s4 with sess := ⟨.validating, .noError, 0⟩ } w4 :=
  ⟨by decide, by decide, by decide, by decide, rfl, witness_Decodable⟩

/-- Each line of the table, the time-out at its last allowed check. -/
theorem witness_SessionTransitions :
    (∃ t, exec .pspoll s0 = .next t ∧ t.sess.ps ≠ s0.sess.ps) ∧
      (∃ t, exec (.pscheck true) (withPs .await) = .next t ∧ t.sess.ps ≠ (withPs .await).sess.ps) ∧
      (∃ t, exec (.pscheck false) { s0 with sess := ⟨.await, .noError, Config.params.maxRetries⟩ } = .next t ∧
        t.sess.ps ≠ .await) ∧
      ∃ t, exec .psval { withVerdict .err 0 with sess := ⟨.validating, .noError, 0⟩ } = .next t ∧
        t.sess.ps ≠ .validating := by
  refine ⟨⟨_, rfl, by decide⟩, ⟨_, rfl, by decide⟩, ⟨_, rfl, ?_⟩, ⟨_, rfl, by decide⟩⟩
  simp [pollCheck, raise]

theorem witness_WaitingIsBounded : (withPs .await).sess.ps = .await ∧
    (withPs .await).sess.retry ≤ Config.params.maxRetries := ⟨rfl, Nat.zero_le _⟩

theorem witness_PollCycleEndsByValidate : (s0.sess.ps = .idle ∨ s0.sess.ps = .done ∨ s0.sess.ps = .failed) ∧
    Config.params.maxRetries < Config.params.maxRetries + 1 ∧ ¬ Config.params.maxRetries < Config.params.maxRetries :=
  ⟨.inl rfl, Nat.lt_succ_self _, Nat.lt_irrefl _⟩

/-- Both forms of an exact decimal. -/
theorem witness_ExactDecimalTextHasItsDigits : (ExactDecimal.mk 5 0).d = 0 ∧ 0 < (ExactDecimal.mk 57 1).d := by decide

theorem witness_CmderrIsSticky :
    (∃ t, step { s0 with cmderr := true, port := [.reset] } = .next t) ∧
      let s : State := { s0 with cmderr := true, port := [.request (.cmd 0x0100000000000000)] }
      (∃ t, step s = .next t) ∧ (∀ rest, s.port ≠ .reset :: rest) ∧ s.cmderr = true :=
  ⟨⟨_, rfl⟩, ⟨_, rfl⟩, (fun _ h => nomatch h), rfl⟩

theorem witness_RefusalSetsCmderrOnly : ¬ Admitted .decode s0 ∧ opOf 0 ∉ definedOps ∧
    ∃ t, exec (.pscheck true) s0 = .next t ∧ t.cmderr ≠ s0.cmderr :=
  ⟨fun h => absurd h (by decide : ¬ s0.parser.fsm = .ok), by decide, ⟨_, rfl, by decide⟩⟩

/-- For each unit an instruction that changes it. -/
theorem witness_EachUnitHasItsWriters :
    (∃ t, exec .decode (withVerdict .ok 55) = .next t ∧ t.tele ≠ (withVerdict .ok 55).tele) ∧
      (∃ t, exec (.decst1 0x0F) s0 = .next t ∧ t.flg ≠ s0.flg) ∧
      (∃ t, exec (.compose 5 70) s0 = .next t ∧ t.comp ≠ s0.comp) ∧
      (∃ t, exec .wirePoll s0 = .next t ∧ t.tx ≠ s0.tx) ∧
      (∃ t, exec .pspoll s0 = .next t ∧ t.sess ≠ s0.sess) ∧
      ∃ t, exec (.rxbyte 0x4D) s0 = .next t ∧ t.parser ≠ s0.parser :=
  ⟨⟨_, rfl, by decide⟩, ⟨_, rfl, by decide⟩, ⟨_, rfl, by decide⟩, ⟨_, rfl, by decide⟩, ⟨_, rfl, by decide⟩,
    ⟨_, rfl, by decide⟩⟩

theorem sInv_inv : sInv.Inv where
  parser := by constructor <;> simp [sInv, s0, Mem.wf, Mem.wfFrom]
  tele := by constructor <;> simp [sInv, s0]
  flags := fun h => nomatch h
  tx := by constructor <;> simp [sInv, s0, Mem.wf, Mem.wfFrom]
  sess := by constructor <;> simp [sInv, s0]

theorem witness_RetryWidthIsWhatItNeeds : sInv.Inv := sInv_inv

/-- Every input keeps the hypothesis of `NoStepFaultsUnderInvariant`, bytes of no wire format among them. -/
theorem witness_NoStepFaultsUnderInvariant : ({ sInv with port := [.request (.tx [0x4D])] } : State).Inv :=
  ⟨sInv_inv.parser, sInv_inv.tele, sInv_inv.flags, sInv_inv.tx, sInv_inv.sess⟩

theorem witness_StepKeepsInvariant : sInv.Inv ∧ step sInv = .next sInv := ⟨sInv_inv, rfl⟩

end Sys2Proof.Tests
end

section
/-! What the text of `dec` says: its characters are digits, they stand for the number, and the first one is not a needless zero
(00_scope.md R14, R15). -/

namespace Sys2Proof.Machine

/-- The code of a digit's character is the digit above that of `'0'` (R14). -/
theorem digitChar_toNat (d : Nat) : (digitChar d).toNat = 48 + d % 10 := by
  have hv : (48 + d % 10).isValidChar := .inl (by omega)
  rw [digitChar, Char.toNat_ofNat, if_pos hv]

theorem digitChar_between (d : Nat) : '0' ≤ digitChar d ∧ digitChar d ≤ '9' := by
  have h := digitChar_toNat d
  constructor
  · change 48 ≤ (digitChar d).toNat
    omega
  · change (digitChar d).toNat ≤ 57
    omega

theorem digitChar_ne_zero {d : Nat} (h : d % 10 ≠ 0) : digitChar d ≠ '0' := by
  intro hc
  have h48 : 48 + d % 10 = 48 := by rw [← digitChar_toNat, hc]; rfl
  omega

/-- A digit put behind a text adds that digit to ten times the text's number. -/
theorem decimalValue_append_digitChar (t : Text) (d : Nat) :
    decimalValue (t ++ [digitChar d]) = decimalValue t * 10 + d % 10 := by
  simp [decimalValue, digitChar_toNat]

/-- Induction along the digits: the numbers of one digit, and each other number from the digits before its last. -/
theorem dec_induction {P : Nat → Prop} (last : ∀ n, n < 10 → P n) (more : ∀ n, 10 ≤ n → P (n / 10) → P n) (n : Nat) : P n := by
  induction n using Nat.strong_induction_on with
  | _ n ih =>
    by_cases h : n < 10
    · exact last n h
    · exact more n (Nat.le_of_not_lt h) (ih (n / 10) (by omega))

theorem decimalValue_dec (n : Nat) : decimalValue (dec n) = n := by
  induction n using dec_induction with
  | last n h => simp [dec_of_lt h, decimalValue, digitChar_toNat, Nat.mod_eq_of_lt h]
  | more n h ih =>
    rw [dec_of_ge h, decimalValue_append_digitChar, ih]
    omega

theorem mem_dec_between {c : Char} {n : Nat} (hc : c ∈ dec n) : '0' ≤ c ∧ c ≤ '9' := by
  induction n using dec_induction with
  | last n h =>
    rw [dec_of_lt h, List.mem_singleton] at hc
    exact hc ▸ digitChar_between n
  | more n h ih =>
    rw [dec_of_ge h, List.mem_append, List.mem_singleton] at hc
    obtain hc | rfl := hc
    · exact ih hc
    · exact digitChar_between n

/-- No leading zero but for 0 itself (R15). -/
theorem head?_dec_ne_zero {n : Nat} (hn : n ≠ 0) : (dec n).head? ≠ some '0' := by
  induction n using dec_induction with
  | last n h =>
    rw [dec_of_lt h, List.head?_cons, ne_eq, Option.some_inj]
    exact digitChar_ne_zero (by omega)
  | more n h ih =>
    have hne : dec (n / 10) ≠ [] := List.ne_nil_of_length_pos (ndigits_pos _)
    rw [dec_of_ge h, List.head?_append_of_ne_nil _ hne]
    exact ih (by omega)

/-- Settles O27: the value, the digit range and the first digit of `dec` go by induction along its digits; `pad` is read off its definition. -/
theorem decimalTextStandsForItsNumber : Obligations.DecimalTextStandsForItsNumber := fun n w =>
  ⟨decimalValue_dec n, fun _ => mem_dec_between, head?_dec_ne_zero, rfl, rfl, ⟨w - ndigits n, rfl⟩, pad_length n w⟩

end Sys2Proof.Machine
end

section
/-! The packed view `STATUS`: what a cut at each place of its table reads (10_state.md R28). -/

namespace Sys2Proof.Machine

/-- Settles O53: a cut at a field's place passes over the fields packed below it and leaves off those packed above it, so what it
reads is the field itself; a one-bit flag is read along the same packing. -/
theorem statusPacksItsFields : Obligations.StatusPacksItsFields := by
  intro s
  rw [State.status]
  refine ⟨?fsm, ?errc, ?cmderr, ?plen, ?tvalid, ?derr, ?ps, ?pserr, ?reserved⟩
  case cmderr | tvalid =>
    simp only [BitVec.getLsbD_append, Nat.reduceSub, Nat.reduceLT, if_true, if_false, BitVec.getLsbD_ofBool, decide_true, Bool.true_and]
  case fsm | errc | plen | derr | ps | pserr | reserved =>
    simp (disch := decide) only [BitVec.extractLsb'_append_eq_of_le, BitVec.extractLsb'_append_eq_of_add_le,
      Nat.reduceSub, BitVec.extractLsb'_eq_self]

end Sys2Proof.Machine
end

section
/-! The operand bits that a row of the opcode map does not use: its fields lie under `operandMask`, so the row reads the same
instruction from the masked word (30_encoding.md R98, R101). -/

namespace Sys2Proof

open Machine

/-- A mask that is all ones over a field leaves the field's value. -/
theorem extractLsb'_and_of_eq_allOnes {m : CmdWord} {lo len : Nat} (h : m.extractLsb' lo len = BitVec.allOnes len)
    (w : CmdWord) : (w &&& m).extractLsb' lo len = w.extractLsb' lo len := by
  rw [BitVec.extractLsb'_and, h, BitVec.and_allOnes]

theorem byteAt_and_of_eq_allOnes {m : CmdWord} {lo : Nat} (h : byteAt m lo = BitVec.allOnes 8) (w : CmdWord) :
    byteAt (w &&& m) lo = byteAt w lo :=
  extractLsb'_and_of_eq_allOnes h w

theorem halfAt_and_of_eq_allOnes {m : CmdWord} {lo : Nat} (h : halfAt m lo = BitVec.allOnes 16) (w : CmdWord) :
    halfAt (w &&& m) lo = halfAt w lo :=
  extractLsb'_and_of_eq_allOnes h w

/-- Every field of a row lies under the mask of its opcode (R98). -/
theorem read_and_operandMask (w : CmdWord) : ∀ r ∈ opRows, r.read (w &&& operandMask r.op) = r.read w := by
  simp only [opRows, List.forall_mem_cons]
  refine ⟨?start, ?rxbyte, ?rxend, ?decst1, ?decst2, ?decwr1, ?decwr2, ?decft1, ?decft2, ?compose, ?decode, ?encpoll, ?encclk,
    ?pspoll, ?pscheck, ?psval, List.forall_mem_nil _⟩
  case start | rxend | decode | encpoll | pspoll | psval => trivial
  case rxbyte | decst1 | decst2 | decwr1 | decwr2 | decft1 | decft2 | compose | encclk =>
    simp (disch := decide) only [byteAt_and_of_eq_allOnes, halfAt_and_of_eq_allOnes]
  case pscheck =>
    have hbit : (operandMask 0x51).getLsbD 0 = true := by decide
    rw [BitVec.getLsbD_and, hbit, Bool.and_true]

/-- Settles O9: the opcode alone selects the row, and the row reads only bits under the opcode's mask. -/
theorem reservedOperandBitsAreIgnored : Obligations.ReservedOperandBitsAreIgnored := by
  intro w w' hop hbits
  simp only [decode, decodeCmd, ← hop]
  cases hrow : opRows.find? (fun r => r.op == opOf w) with
  | none => rfl
  | some r =>
    have hmem : r ∈ opRows := List.mem_of_find?_eq_some hrow
    have hrop : r.op = opOf w := by simpa only [beq_iff_eq] using List.find?_some hrow
    rw [← hrop] at hbits
    have hread : r.read w = r.read w' := by
      rw [← read_and_operandMask w r hmem, hbits, read_and_operandMask w' r hmem]
    simp only [hread]

end Sys2Proof
end

section
/-! What the parser's operations write, by parser state: `START`, `RXBYTE` and `RXEND` (40_frame_parser.md R121, R122, R126, R128). -/

namespace Sys2Proof.Machine

/-- Settles O11: `freshParser` writes the six registers and no other. -/
theorem startMakesParserFresh : Obligations.StartMakesParserFresh := fun s =>
  ⟨freshParser s, rfl, onlyParser_freshParser s, rfl, rfl, rfl, rfl, rfl, rfl, rfl⟩

/-- Settles O14: `rxEnd` raises one error in the header states, another in the body states, and does nothing after a verdict. -/
theorem rxendDecidesShortBuffers : Obligations.RxendDecidesShortBuffers := by
  intro s
  refine ⟨rxEnd s, rfl, onlyParser_rxEnd s, ?_⟩
  cases hf : s.parser.fsm
  case m0 | m1 | m2 | m3 | len | payl | csum => simp only [rxEnd, hf, raise_frame_parser]
  case ok | err => simp only [rxEnd, hf]

theorem rxMagic_parser (k : Nat) (f : Fsm) (b : Byte) (s : State) :
    (rxMagic k f b s).parser =
      if some b = magic[k]? then { s.parser with fsm := f } else { s.parser with errc := .headerMismatch, fsm := .err } := by
  rw [rxMagic, apply_ite State.parser, raise_frame_parser]

theorem rxLength_parser (b : Byte) (s : State) :
    (rxLength b s).parser =
      if b = 0 then { s.parser with lenr := b, cnt := 0, sum := 0, errc := .truncated, fsm := .err }
      else { s.parser with lenr := b, cnt := 0, sum := 0, fsm := if b = 1 then .csum else .payl } := by
  rw [rxLength]
  split_ifs <;> rfl

theorem rxChecksum_parser (b : Byte) (s : State) :
    (rxChecksum b s).parser =
      if b = s.parser.sum then { s.parser with plen := s.parser.lenr - 1, fsm := .ok }
      else { s.parser with errc := .checksumMismatch, fsm := .err } := by
  rw [rxChecksum, apply_ite State.parser, raise_frame_parser]

/-- Settles O12: one case for each parser state; the four magic bytes differ only in the byte compared and the next state. -/
theorem rxbyteFollowsParserState : Obligations.RxbyteFollowsParserState := by
  intro b s hcnt hlen
  have hpay : s.parser.fsm = .payl → s.parser.cnt.toNat < paySize := fun h => Nat.lt_succ_of_le (hcnt h)
  obtain ⟨t, ht⟩ := rxByte_ok (b := b) hpay
  refine ⟨t, by rw [exec, execRxbyte, ht, finish], onlyParser_rxByte ht, ?_⟩
  cases hf : s.parser.fsm
  case m0 | m1 | m2 | m3 =>
    simp only [rxByte, hf, Except.ok.injEq] at ht
    rw [← ht, rxMagic_parser]
    simp [magic]
  case len =>
    simp only [rxByte, hf, Except.ok.injEq] at ht
    rw [← ht, rxLength_parser]
    by_cases h0 : b = 0
    · simp only [if_pos h0, and_self]
    · simp only [if_neg h0, and_self]
  case payl =>
    rw [rxByte_payl hf (hpay hf), Except.ok.injEq] at ht
    subst ht
    have hsucc : (s.parser.cnt + 1).toNat = s.parser.cnt.toNat + 1 := by
      have hle := hcnt hf
      bv_omega
    exact ⟨hsucc, BitVec.toNat_add _ _, Mem.read_write _ _ _, rfl, rfl, rfl, rfl⟩
  case csum =>
    simp only [rxByte, hf, Except.ok.injEq] at ht
    rw [← ht, rxChecksum_parser]
    by_cases hb : b = s.parser.sum
    · simp only [hb, if_true, true_and]
      have hne := hlen hf
      bv_omega
    · simp [hb]
  case ok | err =>
    simpa only [rxByte, hf, Except.ok.injEq, eq_comm] using ht

end Sys2Proof.Machine
end

section
/-! `Validate` of a frame: which checksum byte it accepts, and one flipped payload bit (40_frame_parser.md R120, R131). -/

namespace Sys2Proof.Machine

/-- `Validate` of a frame with any checksum byte compares it with the payload's sum (R120, R125). -/
theorem validate_frame {p : List Byte} (hp : p.length ≤ 254) (c : Byte) :
    validate (magic ++ BitVec.ofNat 8 (p.length + 1) :: (p ++ [c])) =
      if sum8 p = c then .ok p else .error .checksumMismatch := by
  have hl : (BitVec.ofNat 8 (p.length + 1)).toNat = p.length + 1 := by
    rw [BitVec.toNat_ofNat]
    omega
  have hlast : (p ++ [c]).getD p.length 0 = c := by simp
  rw [validate_magic, hl, if_neg (Nat.succ_ne_zero _), if_neg (by simp), Nat.add_sub_cancel, List.take_left, hlast, ite_not]

theorem frameOf_eq (p : List Byte) : frameOf p = magic ++ BitVec.ofNat 8 (p.length + 1) :: (p ++ [sum8 p]) := by
  simp [frameOf]

/-- A payload byte of a frame, replaced. -/
theorem frameOf_set {p : List Byte} {k : Nat} (hk : k < p.length) (b : Byte) :
    (frameOf p).set (5 + k) b = magic ++ BitVec.ofNat 8 ((p.set k b).length + 1) :: (p.set k b ++ [sum8 p]) := by
  rw [frameOf_eq, show 5 + k = k + 1 + magic.length by simp [magic]; omega, List.set_append_right _ _ (by omega),
    Nat.add_sub_cancel, List.set_cons_succ, List.set_append_left _ _ hk, List.length_set]

/-- Another byte at one place changes the sum (R131). -/
theorem sum8_set_ne {p : List Byte} {k : Nat} (hk : k < p.length) {b : Byte} (hb : b ≠ p[k]) : sum8 (p.set k b) ≠ sum8 p := by
  intro h
  have hset := sum8_set p k b hk
  rw [h, BitVec.add_right_inj] at hset
  exact hb hset.symm

theorem xor_two_pow_ne (b : Byte) {j : Nat} (hj : j < 8) : b ^^^ BitVec.ofNat 8 (2 ^ j) ≠ b := by
  intro h
  have hbit := congrArg (·.getLsbD j) h
  simp only [BitVec.getLsbD_xor, BitVec.getLsbD_ofNat, Nat.testBit_two_pow_self, hj, decide_true, Bool.and_self, Bool.xor_true,
    Bool.not_eq_self] at hbit

/-- Settles O18: the checksum accepts the payload itself, and one payload byte that differs gives another sum. -/
theorem checksumRoundTripAndBitFlip : Obligations.ChecksumRoundTripAndBitFlip := by
  intro p hp
  constructor
  · rw [frameOf_eq, validate_frame hp, if_pos rfl]
  · intro k j hk hj
    rw [frameOf_set hk, validate_frame (by rwa [List.length_set]), if_neg (sum8_set_ne hk (xor_two_pow_ne _ hj))]

end Sys2Proof.Machine
end

section
/-! The pseudo-operation `VALIDATE` of a buffer that is not a whole frame: one that does not begin with the magic, and one that
ends before its checksum byte (40_frame_parser.md R132, R133). -/

namespace Sys2Proof.Machine

/-- `VALIDATE` is the fresh parser, the bytes and the end of the buffer in turn, and it writes the parser only (R106). -/
theorem execAll_validateOps {buf : List Byte} {s t : State} (h : rxBytes buf (freshParser s) = .ok t) :
    execAll (validateOps buf) s = .next (rxEnd t) ∧ OnlyParser s (rxEnd t) := by
  constructor
  · simp only [validateOps, execAll, exec, execStart, execAll_append, execAll_rxbyte h, execRxend]
  · exact (onlyParser_freshParser s).trans ((onlyParser_rxBytes h).trans (onlyParser_rxEnd t))

/-- The bytes of the magic that a parser state still waits for. -/
def magicLeft : Fsm → List Byte
  | .m0 => magic
  | .m1 => magic.drop 1
  | .m2 => magic.drop 2
  | .m3 => magic.drop 3
  | .len | .payl | .csum | .ok | .err => []

/-- In a header state the first byte of the rest of the magic moves the parser on, and any other byte is a header error (R122). -/
theorem rxByte_magicLeft {s : State} {m : Byte} {ms : List Byte} (h : magicLeft s.parser.fsm = m :: ms) (b : Byte) :
    ∃ f, magicLeft f = ms ∧
      rxByte b s = .ok (if b = m then { s with parser := { s.parser with fsm := f } } else raise .frame .headerMismatch s) := by
  obtain ⟨k, f, hk, hleft, hstep⟩ : ∃ k f, magic[k]? = some m ∧ magicLeft f = ms ∧ rxByte b s = .ok (rxMagic k f b s) := by
    cases hf : s.parser.fsm <;> rw [hf] at h
    case len | payl | csum | ok | err => cases h
    all_goals obtain ⟨rfl, rfl⟩ := List.cons.inj h
    case m0 => exact ⟨0, .m1, rfl, rfl, by rw [rxByte, hf]⟩
    case m1 => exact ⟨1, .m2, rfl, rfl, by rw [rxByte, hf]⟩
    case m2 => exact ⟨2, .m3, rfl, rfl, by rw [rxByte, hf]⟩
    case m3 => exact ⟨3, .len, rfl, rfl, by rw [rxByte, hf]⟩
  refine ⟨f, hleft, ?_⟩
  simp only [hstep, rxMagic, hk, Option.some_inj]

theorem rxEnd_magicLeft {s : State} (h : magicLeft s.parser.fsm ≠ []) : rxEnd s = raise .frame .headerMismatch s := by
  cases hf : s.parser.fsm
  case len | payl | csum | ok | err => exact absurd (by rw [hf]; rfl) h
  case m0 | m1 | m2 | m3 => simp only [rxEnd, hf]

theorem rxEnd_of_verdict {s : State} (h : s.parser.fsm.verdict = true) : rxEnd s = s := by
  cases hf : s.parser.fsm
  case ok | err => simp only [rxEnd, hf]
  case m0 | m1 | m2 | m3 | len | payl | csum => simp [hf, Fsm.verdict] at h

/-- A buffer that does not go on with the rest of the magic ends in a header error, in whatever header state it starts. -/
theorem rxBytes_headerMismatch (buf : List Byte) {s : State} (h : ¬ magicLeft s.parser.fsm <+: buf) :
    ∃ t, rxBytes buf s = .ok t ∧ HoldsError (rxEnd t).parser .headerMismatch := by
  induction buf generalizing s with
  | nil => exact ⟨s, rfl, by rw [rxEnd_magicLeft (by simpa using h)]; exact ⟨rfl, rfl⟩⟩
  | cons b buf ih =>
    cases hleft : magicLeft s.parser.fsm with
    | nil => exact absurd (hleft ▸ List.nil_prefix) h
    | cons m ms =>
      rw [hleft, List.cons_prefix_cons] at h
      obtain ⟨f, hf, hstep⟩ := rxByte_magicLeft hleft b
      by_cases hb : b = m
      · rw [rxBytes, hstep, if_pos hb]
        exact ih (by rw [hf]; exact fun hpre => h ⟨hb.symm, hpre⟩)
      · rw [rxBytes, hstep, if_neg hb]
        refine ⟨_, rxBytes_verdict rfl buf, ?_⟩
        rw [rxEnd_of_verdict rfl]
        exact ⟨rfl, rfl⟩

/-- Between the magic and the verdict the end of the buffer is a short buffer (R128). -/
theorem rxEnd_of_body {s : State} (h : s.parser.fsm = .len ∨ s.parser.fsm = .payl ∨ s.parser.fsm = .csum) :
    HoldsError (rxEnd s).parser .truncated := by
  obtain hf | hf | hf := h
  all_goals rw [rxEnd, hf]; exact ⟨rfl, rfl⟩

/-- In `LEN`, a length byte `L` with fewer than `L` bytes after it ends truncated: in `CSUM` where only the checksum byte is
missing, in `PAYL` where more is (R133). -/
theorem rxBytes_truncated {s : State} (h : s.parser.fsm = .len) {l : Byte} {rest : List Byte} (hl : rest.length < l.toNat) :
    ∃ t, rxBytes (l :: rest) s = .ok t ∧ HoldsError (rxEnd t).parser .truncated := by
  have hl0 : l ≠ 0 := by
    rintro rfl
    exact Nat.not_lt_zero _ hl
  have hstep : rxByte l s = .ok (rxLength l s) := by simp only [rxByte, h]
  have hpar := rxLength_parser l s
  rw [if_neg hl0] at hpar
  have hcnt : (rxLength l s).parser.cnt.toNat = 0 := by rw [hpar]; rfl
  have hlenr : (rxLength l s).parser.lenr = l := by rw [hpar]
  simp only [rxBytes, hstep]
  by_cases h1 : l = 1
  · obtain rfl : rest = [] := by simpa [h1] using hl
    exact ⟨_, rfl, rxEnd_of_body (.inr (.inr (by rw [hpar, if_pos h1])))⟩
  have hfsm : (rxLength l s).parser.fsm = .payl := by rw [hpar, if_neg h1]
  by_cases hpart : rest.length + 1 < l.toNat
  · obtain ⟨t, ht, hf⟩ := rxBytes_payl_part rest hfsm (by rw [hcnt, hlenr]; omega)
    exact ⟨t, ht, rxEnd_of_body (.inr (.inl hf))⟩
  · have hne : rest ≠ [] := by
      rintro rfl
      exact h1 (BitVec.eq_of_toNat_eq (Nat.le_antisymm (Nat.not_lt.1 hpart) hl))
    obtain ⟨t, ht, hf, -⟩ := rxBytes_payl_full rest hfsm hne (by rw [hcnt, hlenr]; omega)
    exact ⟨t, ht, rxEnd_of_body (.inr (.inr hf))⟩

/-- Settles O19: a fresh parser waits for the whole magic. -/
theorem headerGate : Obligations.HeaderGate := by
  intro buf s h
  have hpre : ¬ magicLeft (freshParser s).parser.fsm <+: buf := fun hp => h (List.prefix_iff_eq_take.1 hp).symm
  obtain ⟨t, ht, herr⟩ := rxBytes_headerMismatch buf hpre
  obtain ⟨hrun, honly⟩ := execAll_validateOps ht
  exact ⟨rxEnd t, hrun, herr, honly⟩

/-- Settles O20: after the magic the parser is in `LEN`, and either the buffer ends there or the length byte asks for more. -/
theorem shortBufferIsTruncated : Obligations.ShortBufferIsTruncated := by
  intro buf s hmagic hshort
  obtain ⟨rest, rfl⟩ : magic <+: buf := List.prefix_iff_eq_take.2 hmagic.symm
  have hlen : (magic ++ rest).length = rest.length + 4 := by rw [List.length_append, Nat.add_comm]; rfl
  rw [hlen] at hshort
  obtain ⟨t, ht, herr⟩ : ∃ t, rxBytes (magic ++ rest) (freshParser s) = .ok t ∧ HoldsError (rxEnd t).parser .truncated := by
    have hmagicRun : rxBytes (magic ++ rest) (freshParser s) =
        rxBytes rest { freshParser s with parser := { (freshParser s).parser with fsm := .len } } := rfl
    rw [hmagicRun]
    cases rest with
    | nil => exact ⟨_, rfl, rxEnd_of_body (.inl rfl)⟩
    | cons l rest =>
      refine rxBytes_truncated rfl ?_
      obtain hfour | ⟨l', hl', hlt⟩ := hshort
      · simp at hfour
      · obtain rfl : l = l' := Option.some_inj.1 hl'
        rw [List.length_cons] at hlt
        omega
  obtain ⟨hrun, honly⟩ := execAll_validateOps ht
  exact ⟨rxEnd t, hrun, herr, honly⟩

end Sys2Proof.Machine
end

section
/-! The byte that a flag decoder stores, role by role: what its mask leaves of the operand (41_bitfield_decoder.md R157 to R162). -/

namespace Sys2Proof.Machine

/-- Every bit of warn1 has a name (R153). -/
@[simp] theorem maskedFlags_wr1 (P : Params) (b : Byte) : maskedFlags P .wr1 b = b := BitVec.and_allOnes

/-- Every bit of fault1 has a name (R155). -/
@[simp] theorem maskedFlags_ft1 (P : Params) (b : Byte) : maskedFlags P .ft1 b = b := BitVec.and_allOnes

@[simp] theorem maskedFlags_maskedFlags (P : Params) (r : Role) (b : Byte) :
    maskedFlags P r (maskedFlags P r b) = maskedFlags P r b := by
  simp only [maskedFlags, BitVec.and_assoc, BitVec.and_self]

theorem getLsbD_maskedFlags (P : Params) (r : Role) (b : Byte) (i : Nat) :
    (maskedFlags P r b).getLsbD i = ((maskOf P r).getLsbD i && b.getLsbD i) := by
  rw [maskedFlags, BitVec.getLsbD_and, Bool.and_comm]

/-- A bit that the role's mask names is stored as it comes. -/
theorem getLsbD_maskedFlags_of_named {P : Params} {r : Role} {i : Nat} (h : (maskOf P r).getLsbD i = true) (b : Byte) :
    (maskedFlags P r b).getLsbD i = b.getLsbD i := by
  rw [getLsbD_maskedFlags, h, Bool.true_and]

theorem maskFt2_eq_twoPow (P : Params) : maskFt2 P = BitVec.twoPow 8 P.ft2Bit.val :=
  BitVec.eq_of_toNat_eq (by rw [maskFt2, BitVec.toNat_ofNat, BitVec.toNat_twoPow])

/-- With one bit in the mask, `FLG[5] ≠ 0` is that bit (R156, R162). -/
theorem maskedFlags_ft2_bne_zero (P : Params) (b : Byte) : (maskedFlags P .ft2 b != 0) = b.getLsbD P.ft2Bit.val := by
  rw [maskedFlags, maskOf, maskFt2_eq_twoPow, BitVec.and_twoPow]
  cases b.getLsbD P.ft2Bit.val with
  | false => rfl
  | true =>
    have hpow : ∀ k : Fin 8, BitVec.twoPow 8 k.val ≠ 0 := by decide
    exact bne_iff_ne.2 (hpow P.ft2Bit)

/-- Settles O23: the four bits of `0F` and the two of `03` pass their masks, and the other status byte is not written. -/
theorem statusDecodersStoreMaskedByte : Obligations.StatusDecodersStoreMaskedByte := by
  intro b s
  refine ⟨⟨_, rfl, rfl, ?st1⟩, ⟨_, rfl, rfl, ?st2⟩⟩
  case st1 | st2 =>
    simp only [decodeRole_flg, FlagRegs.set, FlagRegs.status]
    simp (disch := decide) only [getLsbD_maskedFlags_of_named]

/-- Settles O24: warn1 and fault1 have full masks, warn2 and fault2 are masked once, and the one bit of fault2 decides its flag. -/
theorem warningAndFaultDecodersStoreMaskedByte : Obligations.WarningAndFaultDecodersStoreMaskedByte := by
  intro b s
  refine ⟨⟨_, rfl, ?wr1, ?warn1⟩, ⟨_, rfl, rfl, ?warn2, getLsbD_maskedFlags _ .wr2 b⟩, ⟨_, rfl, ?ft1, ?fault1⟩,
    ⟨_, rfl, rfl, ?fault2, rfl, maskedFlags_ft2_bne_zero _ b⟩⟩
  case wr1 => rw [decodeRole, maskedFlags_wr1, FlagRegs.set]
  case ft1 => rw [decodeRole, maskedFlags_ft1, FlagRegs.set]
  case warn1 => exact congrArg lanes (maskedFlags_wr1 _ b)
  case fault1 => exact congrArg lanes (maskedFlags_ft1 _ b)
  case warn2 => exact congrArg lanes (maskedFlags_maskedFlags _ .wr2 b)
  case fault2 => exact congrArg lanes (maskedFlags_maskedFlags _ .ft2 b)

end Sys2Proof.Machine
end

section
/-! The composer: the text of a composition, and the registers that stand for it (42_fixed_point_composer.md R170, R171). -/

namespace Sys2Proof.Machine

/-- `F` is below `10^D`, so dividing the mantissa by `10^D` gives the two parts back (R170). -/
theorem compose_div_mod (i f : Nat) :
    (compose i f).m / 10 ^ ndigits f = i ∧ (compose i f).m % 10 ^ ndigits f = f := by
  rw [Nat.div_mod_unique (by positivity)]
  exact ⟨by rw [compose, Nat.mul_comm, Nat.add_comm], lt_pow_ndigits f⟩

/-- The digits of `F` fill the places after the point, so nothing is padded (R170). -/
theorem compose_text (i f : Nat) : (compose i f).text = composeText i f := by
  obtain ⟨hdiv, hmod⟩ := compose_div_mod i f
  have hd : (compose i f).d = ndigits f := rfl
  rw [ExactDecimal.text_of_pos (ndigits_pos f), hd, hdiv, hmod, pad_of_le (Nat.le_refl _), composeText]

/-- Settles O29: the value is the definition, and its text is that of its quotient and remainder by `10^D`, the two parts. -/
theorem composedTextIsDigitConcatenation : Obligations.ComposedTextIsDigitConcatenation := fun i f =>
  ⟨rfl, compose_text i f⟩

/-- The digit count of a 16-bit part fits the three bits of `CD` (R31). -/
theorem composeRegs_cd_toNat (i f : Half) : (composeRegs i f).cd.toNat = ndigits f.toNat := composed_coherent i f

/-- The mantissa of two 16-bit parts is below `2^16 * 10^5 + 2^16`, hence below `2^33` (R177). -/
theorem compose_half_m_lt (i f : Half) : (compose i.toNat f.toNat).m < 2 ^ 33 := by
  have hpow : 10 ^ ndigits f.toNat ≤ 10 ^ 5 := Nat.pow_le_pow_right (by decide) (ndigits_half f).2
  have hmul : i.toNat * 10 ^ ndigits f.toNat ≤ 65535 * 10 ^ 5 := Nat.mul_le_mul (Nat.le_of_lt_succ i.isLt) hpow
  have hf := f.isLt
  simp only [compose]
  omega

theorem composeRegs_cm_toNat (i f : Half) : (composeRegs i f).cm.toNat = (compose i.toNat f.toNat).m :=
  Nat.mod_eq_of_lt (compose_half_m_lt i f)

/-- `(CM, CD)` is the composition of the two parts (R31, R171). -/
theorem composeRegs_exact (i f : Half) : (composeRegs i f).exact = compose i.toNat f.toNat := by
  rw [CompRegs.exact, composeRegs_cm_toNat, composeRegs_cd_toNat, compose]

/-- Settles O28: both computed registers hold their natural numbers uncut, so `(CM, CD)` is the composition of the parts. -/
theorem composeStoresExactDecimal : Obligations.ComposeStoresExactDecimal := by
  intro i f s
  refine ⟨{ s with comp := composeRegs i f }, rfl, rfl, rfl, rfl, ?cd, ?cm, ?text⟩
  case cd =>
    have hf := f.isLt
    rw [composeRegs_cd_toNat, ndigits_eq _ (by omega)]
  case cm => rw [composeRegs_cm_toNat, composeRegs_cd_toNat, compose]
  case text => rw [composeRegs_exact, compose_text, composeText]

end Sys2Proof.Machine
end

section
/-! `DECODE` of a decodable payload: the values its register forms read, and what the flag, scalar, composed and configuration
registers hold (43_telemetry_decoder.md R186 to R203). -/

namespace Sys2Proof.Machine

/-- A decodable payload takes the successful arm of `DECODE` (R186). -/
theorem exec_decode_of_decodable {s : State} {w : Window} (h : Decodable s w) :
    exec .decode s = .next (storeTelemetry Config.params w s) := by
  rw [exec, execDecode, decodeOp_of_decodable h, finish]

theorem onlyFlagsAndTelemetry_storeTelemetry (P : Params) (w : Window) (s : State) :
    OnlyFlagsAndTelemetry s (storeTelemetry P w s) := rfl

theorem u16_toNat (w : Window) (a : Fin 55) : (u16 w a).toNat = (w a.castSucc).toNat + 256 * (w a.succ).toNat :=
  u16le_toNat _ _

theorem part_toNat (w : Window) (p : PartAt) : (part w p).toNat = partValue w p := by
  cases p with
  | one a => exact BitVec.toNat_setWidth_of_le (by decide)
  | two a => exact u16_toNat w a

/-- A triple whose digit count is that of its fractional part stands for the composition of its parts (R33, R170). -/
theorem Composed.Coherent.exact_eq {c : Composed} (h : c.Coherent) : c.exact = compose c.i.toNat c.f.toNat := by
  rw [Composed.exact, h, compose]

/-- A composed register holds its two parts and stands for their composition (R188). -/
theorem comp_parts_and_exact (w : Window) (pi pf : PartAt) :
    (comp w pi pf).i.toNat = partValue w pi ∧ (comp w pi pf).f.toNat = partValue w pf ∧
      (comp w pi pf).exact = compose (partValue w pi) (partValue w pf) := by
  have hi : (comp w pi pf).i.toNat = partValue w pi := part_toNat w pi
  have hf : (comp w pi pf).f.toNat = partValue w pf := part_toNat w pf
  exact ⟨hi, hf, by rw [(comp_coherent w pi pf).exact_eq, hi, hf]⟩

/-- The sentinel byte is the absent temperature, whatever its stale register holds (R188, R194). -/
theorem sentinel_temperature (b old : Byte) :
    (if (sentinel b old).1 then some (sentinel b old).2.toNat else none) = if b = 255 then none else some b.toNat := by
  rw [sentinel]
  by_cases h : b = 255
  · simp only [if_pos h, Bool.false_eq_true, if_false]
  · simp only [if_neg h, if_true]

theorem decodeRecord_batteryTemperature (P : Params) (w : Window) (old : Telemetry) :
    (decodeRecord P w old).batteryTemperature =
      if w P.layout.btemp = 255 then none else some (w P.layout.btemp).toNat :=
  sentinel_temperature (w P.layout.btemp) old.btemp

/-- The flag registers of a payload with the masks written out: the two full masks leave their bytes (R153, R155, R203). -/
theorem decodeFlags_eq (P : Params) (w : Window) :
    decodeFlags P w =
      { st1 := w P.layout.st1 &&& 0x0F, st2 := w P.layout.st2 &&& 0x03,
        wr1 := w P.layout.wr1, wr2 := w P.layout.wr2 &&& maskWr2 P,
        ft1 := w P.layout.ft1, ft2 := w P.layout.ft2 &&& maskFt2 P } := by
  rw [decodeFlags, maskedFlags_wr1, maskedFlags_ft1]
  rfl

/-- Settles O33: the successful arm writes `FLG` and the telemetry alone, and the masks of `FLG` are those of the six roles. -/
theorem decodeStoresFlagsAndFrame : Obligations.DecodeStoresFlagsAndFrame := fun s w h =>
  ⟨storeTelemetry Config.params w s, exec_decode_of_decodable h, onlyFlagsAndTelemetry_storeTelemetry _ w s, rfl, rfl,
    decodeFlags_eq _ w⟩

/-- Settles O34: the pairs go by `u16_toNat` and the battery temperature by its sentinel; every other register is its byte, and each
view is the register it reads. -/
theorem decodeStoresScalars : Obligations.DecodeStoresScalars := by
  intro s w h
  refine ⟨storeTelemetry Config.params w s, exec_decode_of_decodable h, ?_⟩
  rw [storeTelemetry_tele]
  exact ⟨u16_toNat w _, u16_toNat w _, u16_toNat w _, rfl, rfl, rfl, decodeRecord_batteryTemperature _ w _, rfl,
    rfl, rfl, rfl, rfl, rfl, rfl, rfl, rfl, rfl, rfl, rfl, rfl⟩

/-- Settles O35: the four composed registers are one case, the nine configuration registers another. -/
theorem decodeStoresComposedAndConfig : Obligations.DecodeStoresComposedAndConfig := by
  intro s w h
  refine ⟨storeTelemetry Config.params w s, exec_decode_of_decodable h, ?composed, ?config⟩
  case composed =>
    simp only [List.forall_mem_cons]
    exact ⟨comp_parts_and_exact w _ _, comp_parts_and_exact w _ _, comp_parts_and_exact w _ _, comp_parts_and_exact w _ _,
      List.forall_mem_nil _⟩
  case config =>
    simp only [List.forall_mem_cons]
    exact ⟨part_toNat w _, part_toNat w _, part_toNat w _, part_toNat w _, part_toNat w _, part_toNat w _, part_toNat w _,
      part_toNat w _, part_toNat w _, List.forall_mem_nil _⟩

end Sys2Proof.Machine
end

section
/-! The timestamp: its text and its length (43_telemetry_decoder.md R199). -/

namespace Sys2Proof.Machine

/-- A number below `10^k` has at most `k` digits, where one digit is the least (R15). -/
theorem ndigits_le_of_lt_pow {n k : Nat} (hk : 0 < k) (h : n < 10 ^ k) : ndigits n ≤ k := by
  obtain rfl | hn := Nat.eq_zero_or_pos n
  · exact hk
  · have hpow : 10 ^ (ndigits n - 1) < 10 ^ k := Nat.lt_of_le_of_lt (pow_pred_ndigits_le hn) h
    have hlt := (Nat.pow_lt_pow_iff_right (by decide)).1 hpow
    omega

theorem timestamp_eq (t : Telemetry) :
    t.timestamp = pad t.year.toNat 4 ++ ['-'] ++ pad t.mon.toNat 2 ++ ['-'] ++ pad t.day.toNat 2 ++ [' '] ++
      pad t.hour.toNat 2 ++ [':'] ++ pad t.min.toNat 2 ++ [':'] ++ pad t.sec.toNat 2 := by
  simp only [Telemetry.timestamp, List.append_assoc, List.cons_append, List.nil_append]

/-- The six padded widths and the five separators (R199). -/
theorem timestamp_length (t : Telemetry) :
    t.timestamp.length = max 4 (ndigits t.year.toNat) + max 2 (ndigits t.mon.toNat) + max 2 (ndigits t.day.toNat) +
      max 2 (ndigits t.hour.toNat) + max 2 (ndigits t.min.toNat) + max 2 (ndigits t.sec.toNat) + 5 := by
  simp only [timestamp_eq, List.length_append, List.length_singleton, pad_length]
  omega

/-- Settles O40: fields in range have at most their padded width, so the length is that of the six widths and the separators. -/
theorem timestampLength : Obligations.TimestampLength := by
  intro t
  refine ⟨timestamp_eq t, timestamp_length t, fun hyear hmon hday hhour hmin hsec => ?_⟩
  have hfour : ∀ {n : Nat}, n ≤ 9999 → max 4 (ndigits n) = 4 := fun h =>
    max_eq_left (ndigits_le_of_lt_pow (by decide) (Nat.lt_succ_of_le h))
  have htwo : ∀ {n : Nat}, n ≤ 99 → max 2 (ndigits n) = 2 := fun h =>
    max_eq_left (ndigits_le_of_lt_pow (by decide) (Nat.lt_succ_of_le h))
  rw [timestamp_length, hfour hyear, htwo hmon, htwo hday, htwo hhour, htwo hmin, htwo hsec]

end Sys2Proof.Machine
end

section
/-! The command encoder: what `TXB` reads after the poll command and after the clock command (44_command_encoder.md R220, R222). -/

namespace Sys2Proof.Machine

theorem onlyTransmit_sendBytes (bs : List Byte) (s : State) : OnlyTransmit s (sendBytes bs s) := rfl

theorem read_sendBytes_of_lt {bs : List Byte} {k : Nat} (h : k < bs.length) (s : State) :
    Mem.read (sendBytes bs s).tx.txb k = bs[k]? := by
  rw [read_sendBytes, if_pos h]

theorem read_sendBytes_of_le {bs : List Byte} {k : Nat} (h : bs.length ≤ k) (s : State) :
    Mem.read (sendBytes bs s).tx.txb k = Mem.read s.tx.txb k := by
  rw [read_sendBytes, if_neg (Nat.not_lt.2 h)]

/-- Settles O41: the command built is the poll literal. -/
theorem pollCommandIsBuilt : Obligations.PollCommandIsBuilt := fun s =>
  ⟨sendPoll s, rfl, onlyTransmit_sendBytes _ s, rfl, fun _ hk => read_sendBytes_of_lt hk s,
    fun _ hk => read_sendBytes_of_le hk s⟩

/-- The clock command begins with the preamble (R94). -/
theorem setclkBytes_getElem?_preamble (P : Params) (year : Half) (month day hour minute second : Byte) (k : Fin 11) :
    (setclkBytes P year month day hour minute second)[k.val]? = some P.preamble[k] := by
  fin_cases k <;> rfl

/-- Settles O42: `TXB` reads the wire bytes, which are the preamble, the two bytes of the year and the five operands. -/
theorem clockCommandIsBuilt : Obligations.ClockCommandIsBuilt := by
  intro s year month day hour minute second
  have hread : ∀ k, k < 18 → Mem.read (sendClock Config.params year month day hour minute second s).tx.txb k =
      (setclkBytes Config.params year month day hour minute second)[k]? := fun _ hk => read_sendBytes_of_lt hk s
  refine ⟨sendClock Config.params year month day hour minute second s, rfl, onlyTransmit_sendBytes _ s, rfl, fun k => ?preamble,
    ⟨highByte year, lowByte year, hread 11 (by decide), hread 12 (by decide), highByte_toNat year, lowByte_toNat year⟩,
    hread 13 (by decide), hread 14 (by decide), hread 15 (by decide), hread 16 (by decide), hread 17 (by decide),
    fun _ hk => read_sendBytes_of_le hk s⟩
  case preamble => rw [hread k (by omega), setclkBytes_getElem?_preamble]

end Sys2Proof.Machine
end

section
/-! The poll session: what `PSPOLL`, `PSCHECK` and `PSVAL` answer, by session state and verdict (45_poll_session.md R236, R238,
R239). -/

namespace Sys2Proof.Machine

theorem pollStart_of_active {s : State} (h : s.sess.ps.active = true) : pollStart s = refuse s := by
  rw [pollStart, if_pos h]

theorem pollStart_of_not_active {s : State} (h : s.sess.ps.active = false) :
    pollStart s = { sendPoll s with sess := { ps := .await, pserr := .noError, retry := 0 } } := by
  rw [pollStart, h, if_neg Bool.false_ne_true]

/-- Settles O44: the five session states are the active two, which refuse, and the other three, which send the poll literal. -/
theorem pspollStartsASession : Obligations.PspollStartsASession := by
  intro s
  constructor
  · intro hps
    have hact : s.sess.ps.active = true := by rcases hps with h | h <;> rw [h] <;> rfl
    rw [exec, execPspoll, pollStart_of_active hact, refuse]
  · intro hps
    have hact : s.sess.ps.active = false := by rcases hps with h | h | h <;> rw [h] <;> rfl
    rw [exec, execPspoll, pollStart_of_not_active hact]
    exact ⟨_, rfl, rfl, rfl, fun _ hk => read_sendBytes_of_lt hk s, fun _ hk => read_sendBytes_of_le hk s⟩

theorem pollCheck_of_ne_await {s : State} (h : s.sess.ps ≠ .await) (P : Params) (p : Bool) : pollCheck P p s = refuse s := by
  rw [pollCheck, if_pos h]

theorem pollCheck_true_of_await {s : State} (h : s.sess.ps = .await) (P : Params) :
    pollCheck P true s = { freshParser s with sess := { s.sess with ps := .validating } } := by
  rw [pollCheck, if_neg (not_not.2 h), if_pos rfl]

/-- A failed check is counted either way; the count decides whether the session times out (R238). -/
theorem pollCheck_false_of_await {s : State} (h : s.sess.ps = .await) (P : Params) :
    pollCheck P false s = { s with
      sess := if P.maxRetries < s.sess.retry + 1 then { ps := .failed, pserr := .timeoutError, retry := s.sess.retry + 1 }
        else { s.sess with retry := s.sess.retry + 1 } } := by
  rw [pollCheck, if_neg (not_not.2 h), if_neg Bool.false_ne_true]
  by_cases hmax : P.maxRetries < s.sess.retry + 1
  · simp only [if_pos hmax, raise]
  · simp only [if_neg hmax]

/-- Settles O45: the refusal and the two operands in `AWAIT` are the three equations of `pollCheck`. -/
theorem pscheckCountsOrValidates : Obligations.PscheckCountsOrValidates := by
  intro s
  refine ⟨fun p hps => ?refused, fun hps => ?pending, fun hps => ?silent⟩
  case refused => rw [exec, execPscheck, pollCheck_of_ne_await hps, refuse]
  case pending => rw [exec, execPscheck, pollCheck_true_of_await hps, freshParser]
  case silent => rw [exec, execPscheck, pollCheck_false_of_await hps]

theorem Fsm.verdict_eq_false {f : Fsm} (hok : f ≠ .ok) (herr : f ≠ .err) : f.verdict = false := by
  cases f
  case ok => exact absurd rfl hok
  case err => exact absurd rfl herr
  case m0 | m1 | m2 | m3 | len | payl | csum => rfl

/-- `DECODE` of a validated payload under 56 bytes (R186). -/
theorem decodeOp_of_short {s : State} (hf : s.parser.fsm = .ok) (hlen : s.parser.plen.toNat < minPayload) (P : Params) :
    decodeOp P s = .ok (raise .tele .truncated s) := by
  rw [decodeOp, if_neg (not_not.2 hf), if_pos hlen]

theorem pollValidate_of_not_admitted {s : State} (h : s.sess.ps ≠ .validating ∨ s.parser.fsm.verdict = false) (P : Params) :
    pollValidate P s = .ok (refuse s) := by
  rw [pollValidate, if_pos h]

/-- The parser's error is the session's (R239). -/
theorem pollValidate_of_err {s : State} (hps : s.sess.ps = .validating) (hf : s.parser.fsm = .err) (P : Params) :
    pollValidate P s = .ok (raise .poll s.parser.errc s) := by
  rw [pollValidate, if_neg (by simp [hps, hf, Fsm.verdict]), if_pos hf]

/-- After a frame the session ends by the error code that `DECODE` leaves (R239). -/
theorem pollValidate_of_decodeOp {P : Params} {s u : State} (hps : s.sess.ps = .validating) (hf : s.parser.fsm = .ok)
    (hu : decodeOp P s = .ok u) :
    pollValidate P s = .ok (if u.tele.derr = .truncated then raise .poll .truncated u
      else { u with sess := { u.sess with pserr := .noError, ps := .done } }) := by
  rw [pollValidate, if_neg (by simp [hps, hf, Fsm.verdict]), if_neg (by simp [hf]), hu, apply_ite Except.ok]

theorem exec_psval_of_ok {s t : State} (h : pollValidate Config.params s = .ok t) : exec .psval s = .next t := by
  rw [exec, execPsval, h, finish]

/-- Settles O46: the refusal and the parser's error are read off `pollValidate`; after a frame `DECODE` leaves `Truncated` for a
short payload and no error for a decodable one, and that code ends the session. -/
theorem psvalJudgesTheFrame : Obligations.PsvalJudgesTheFrame := by
  intro s
  refine ⟨fun h => ?refused, fun hps hf => ?parserError, fun hps hf hlen => ?short, fun w hps hw => ?decoded⟩
  case refused =>
    exact exec_psval_of_ok (pollValidate_of_not_admitted (h.imp_right fun ⟨hok, herr⟩ => Fsm.verdict_eq_false hok herr) _)
  case parserError => exact exec_psval_of_ok (pollValidate_of_err hps hf _)
  case short =>
    have hval := pollValidate_of_decodeOp hps hf (decodeOp_of_short hf hlen Config.params)
    have hcode : (raise .tele .truncated s).tele.derr = .truncated := rfl
    rw [if_pos hcode] at hval
    exact exec_psval_of_ok hval
  case decoded =>
    have hval := pollValidate_of_decodeOp hps hw.1 (decodeOp_of_decodable (P := Config.params) hw)
    have hcode : (storeTelemetry Config.params w s).tele.derr ≠ .truncated := nofun
    rw [if_neg hcode] at hval
    exact ⟨_, exec_decode_of_decodable hw, exec_psval_of_ok hval⟩

end Sys2Proof.Machine
end

section
/-! Refusals: an operation that is not admitted sets `CMDERR` and nothing else, and an admitted one leaves `CMDERR` alone
(60_exceptions.md R268; 30_encoding.md R100). -/

namespace Sys2Proof.Machine

theorem decodeOp_of_ne_ok {s : State} (h : s.parser.fsm ≠ .ok) (P : Params) : decodeOp P s = .ok (refuse s) := by
  rw [decodeOp, if_pos h]

/-- Four instructions have a condition, and each refuses where it fails (R268). -/
theorem exec_of_not_admitted {i : Instr} {s : State} (h : ¬ Admitted i s) : exec i s = .next (refuse s) := by
  cases i
  case decode => rw [exec, execDecode, decodeOp_of_ne_ok h, finish]
  case pspoll => exact (pspollStartsASession s).1 (by rwa [Admitted, ← not_or, not_not] at h)
  case pscheck p => exact (pscheckCountsOrValidates s).1 p h
  case psval => exact (psvalJudgesTheFrame s).1 (by rwa [Admitted, not_and_or, not_or] at h)
  case start | rxbyte | rxend | decst1 | decst2 | decwr1 | decwr2 | decft1 | decft2 | compose | encpoll | encclk | wireResp |
      wirePoll | wireSetclk => exact absurd trivial h

theorem handleRequest_of_undefined {w : CmdWord} (h : opOf w ∉ definedOps) (s : State) :
    handleRequest (.cmd w) s = .next (refuse s) := by
  rw [handleRequest, decode_undefined h]
  rfl

theorem cmderr_of_decodeOp {P : Params} {s t : State} (hf : s.parser.fsm = .ok) (h : decodeOp P s = .ok t) :
    t.cmderr = s.cmderr := by
  obtain ⟨hne, -⟩ | ⟨-, -, rfl⟩ | ⟨w, -, rfl⟩ := decodeOp_cases h
  · exact absurd hf hne
  · exact raise_tele_cmderr _ s
  · exact storeTelemetry_cmderr P w s

theorem Ps.active_eq_false {p : Ps} (hawait : p ≠ .await) (hvalidating : p ≠ .validating) : p.active = false := by
  cases p
  case await => exact absurd rfl hawait
  case validating => exact absurd rfl hvalidating
  case idle | done | failed => rfl

theorem cmderr_pollStart {s : State} (h : s.sess.ps.active = false) : (pollStart s).cmderr = s.cmderr := by
  rw [pollStart_of_not_active h]
  rfl

theorem cmderr_pollCheck {s : State} (h : s.sess.ps = .await) (P : Params) (p : Bool) :
    (pollCheck P p s).cmderr = s.cmderr := by
  cases p with
  | false => rw [pollCheck_false_of_await h]
  | true => rw [pollCheck_true_of_await h, freshParser_cmderr]

theorem cmderr_of_pollValidate {P : Params} {s t : State} (hps : s.sess.ps = .validating) (hv : s.parser.fsm.verdict = true)
    (h : pollValidate P s = .ok t) : t.cmderr = s.cmderr := by
  obtain ⟨hne | hne, -⟩ | ⟨-, -, rfl⟩ | ⟨-, -, -, rfl⟩ | ⟨-, w, -, rfl⟩ := pollValidate_cases h
  · exact absurd hps hne
  · rw [hv] at hne
    cases hne
  · exact raise_poll_cmderr _ s
  · rw [raise_poll_cmderr, raise_tele_cmderr]
  · exact storeTelemetry_cmderr P w s

/-- An admitted instruction that answers a next state leaves `CMDERR` as it was. -/
theorem cmderr_of_admitted {i : Instr} {s t : State} (hadm : Admitted i s) (h : exec i s = .next t) : t.cmderr = s.cmderr := by
  cases i
  case rxbyte => exact (onlyParser_rxByte (finish_next h)).frame.1
  case wireResp => exact (onlyParser_validateBuffer (finish_next h)).frame.1
  case decode => exact cmderr_of_decodeOp hadm (finish_next h)
  case psval =>
    obtain ⟨hps, hf⟩ := hadm
    have hv : s.parser.fsm.verdict = true := by rcases hf with hf | hf <;> rw [hf] <;> rfl
    exact cmderr_of_pollValidate hps hv (finish_next h)
  all_goals obtain rfl := Host.Outcome.next.inj h
  case pspoll => exact cmderr_pollStart (Ps.active_eq_false hadm.1 hadm.2)
  case pscheck p => exact cmderr_pollCheck hadm _ p
  case rxend => exact (onlyParser_rxEnd s).frame.1
  case start => exact freshParser_cmderr s
  case decst1 | decst2 | decwr1 | decwr2 | decft1 | decft2 => exact decodeRole_cmderr _ _ _ s
  case compose => rfl
  case encpoll | encclk | wirePoll | wireSetclk => exact sendBytes_cmderr _ s

/-- Settles O51: the two refusals are the equations above, and the last clause is the contrapositive of `cmderr_of_admitted`. -/
theorem refusalSetsCmderrOnly : Obligations.RefusalSetsCmderrOnly :=
  ⟨fun _ _ => exec_of_not_admitted, fun _ s h => handleRequest_of_undefined h s,
    fun _ _ _ h hne hadm => hne (cmderr_of_admitted hadm h)⟩

end Sys2Proof.Machine
end

section
/-! The two directions of the encoding: an instruction is read back from its own words, and a command word that decodes is the
word of its instruction on the opcode and the operand fields (30_encoding.md R96 to R101; the wire rows R91, R93, R94). -/

namespace Sys2Proof

open Machine

/-- A `WIRE_RESP` of the spec begins with the magic (R91). -/
theorem take_four_of_wf_wireResp {buf : List Byte} (h : (Instr.wireResp buf).wf = true) : buf.take 4 = magic := by
  simp only [Instr.wf, Bool.and_eq_true] at h
  obtain ⟨⟨⟨hmagic, -⟩, -⟩, -⟩ := h
  exact beq_iff_eq.1 hmagic

/-- The clock command has 18 bytes and the poll literal 11. -/
theorem setclkBytes_ne_pollLiteral (P : Params) (year : Half) (month day hour minute second : Byte) :
    setclkBytes P year month day hour minute second ≠ pollLiteral := fun h =>
  absurd (congrArg List.length h) (by rw [setclkBytes_length, pollLiteral_length]; decide)

theorem decodeTx_setclkBytes (P : Params) (year : Half) (month day hour minute second : Byte) :
    decodeTx (setclkBytes P year month day hour minute second) = .ok (.wireSetclk year month day hour minute second) := by
  have hdrop : (setclkBytes P year month day hour minute second).drop 11 =
      [highByte year, lowByte year, month, day, hour, minute, second] := rfl
  simp only [decodeTx, if_neg (setclkBytes_ne_pollLiteral P year month day hour minute second), hdrop, u16le_low_high]

/-- Settles O7: a command word is read by the row of its opcode, whose fields stand where the encoding put them; the wire units are
told apart by their magic and their length. -/
theorem decodeOfEncodeIsIdentity : Obligations.DecodeOfEncodeIsIdentity := by
  intro i hwf
  cases i
  case start | rxend | decode | encpoll | pspoll | psval => rw [encode, decode_cmdWord _ rfl]
  case rxbyte | decst1 | decst2 | decwr1 | decwr2 | decft1 | decft2 =>
    rw [encode, decode_cmdWord _ rfl]
    simp only [byteAt_byteArg]
  case compose i f =>
    rw [encode, decode_cmdWord _ rfl]
    simp (disch := decide) only [halfAt, extract_cmdWord, BitVec.extractLsb'_append_eq_of_le,
      BitVec.extractLsb'_append_eq_of_add_le, Nat.reduceSub, BitVec.extractLsb'_eq_self]
  case encclk year month day hour minute second =>
    rw [encode, decode_cmdWord _ rfl]
    simp (disch := decide) only [halfAt, byteAt, clockArg, extract_cmdWord, BitVec.extractLsb'_append_eq_of_le,
      BitVec.extractLsb'_append_eq_of_add_le, Nat.reduceSub, BitVec.extractLsb'_eq_self]
  case pscheck p =>
    rw [encode, decode_cmdWord _ rfl]
    simp only [getLsbD_cmdWord, BitVec.getLsbD_append, Nat.ofNat_pos, Nat.one_pos, if_true,
      BitVec.getLsbD_ofBool, decide_true, Bool.true_and]
  case wireResp buf => rw [encode, decode, decodeRx, if_pos (take_four_of_wf_wireResp hwf)]
  case wirePoll => rfl
  case wireSetclk year month day hour minute second => exact decodeTx_setclkBytes _ year month day hour minute second

/-- The mask of the opcode's eight bits (R96). -/
def opMask : CmdWord := 0xFF00000000000000

/-- Masking with the opcode's bits and some operand bits keeps the opcode and masks the operands. -/
theorem and_opMask_or (w m : CmdWord) : w &&& (opMask ||| m) = cmdWord (opOf w) ((w &&& m).extractLsb' 0 56) := by
  have hop : opOf (opMask ||| m) = BitVec.allOnes 8 := by
    have hall : opOf opMask = BitVec.allOnes 8 := by decide
    rw [opOf] at hall ⊢
    rw [BitVec.extractLsb'_or, hall, BitVec.allOnes_or]
  have harg : (opMask ||| m).extractLsb' 0 56 = m.extractLsb' 0 56 := by
    have hzero : opMask.extractLsb' 0 56 = 0#56 := by decide
    rw [BitVec.extractLsb'_or, hzero, BitVec.zero_or]
  rw [← cmdWord_eta (w &&& (opMask ||| m)), opOf, extractLsb'_and_of_eq_allOnes hop, ← opOf, BitVec.extractLsb'_and, harg,
    ← BitVec.extractLsb'_and]

/-- The operand bits below bit `n`, the others cleared. -/
theorem extractLsb'_and_lowMask (w : CmdWord) {k n : Nat} (h : k + n = 56) :
    (w &&& BitVec.ofNat 64 (2 ^ n - 1)).extractLsb' 0 56 = ((0 : BitVec k) ++ w.extractLsb' 0 n).cast h := by
  ext i hi
  simp only [BitVec.getElem_extractLsb', BitVec.getElem_cast, BitVec.getElem_append, BitVec.getLsbD_and, BitVec.getLsbD_ofNat,
    Nat.testBit_two_pow_sub_one, Nat.zero_add]
  split_ifs with c <;> simp [c]
  omega

/-- The bits of a one-byte operand (R98). -/
theorem byteArg_byteAt (w : CmdWord) : (w &&& 0xFF).extractLsb' 0 56 = byteArg (byteAt w 0) :=
  extractLsb'_and_lowMask w (k := 48) (n := 8) rfl

theorem halfAt_append_halfAt (w : CmdWord) : halfAt w 16 ++ halfAt w 0 = w.extractLsb' 0 32 :=
  BitVec.extractLsb'_append_extractLsb'_eq_extractLsb' rfl

/-- The bits of the two operands of `COMPOSE` (R98). -/
theorem composeArg_halfAt (w : CmdWord) :
    (w &&& 0xFFFFFFFF).extractLsb' 0 56 = (0 : BitVec 24) ++ halfAt w 16 ++ halfAt w 0 := by
  rw [BitVec.append_assoc, halfAt_append_halfAt]
  exact extractLsb'_and_lowMask w (k := 24) (n := 32) rfl

/-- The operands of `ENCCLK` fill all 56 bits (R98). -/
theorem clockArg_fields (w : CmdWord) :
    (w &&& 0x00FFFFFFFFFFFFFF).extractLsb' 0 56 =
      clockArg (halfAt w 40) (byteAt w 32) (byteAt w 24) (byteAt w 16) (byteAt w 8) (byteAt w 0) := by
  simp (disch := rfl) only [clockArg, halfAt, byteAt, BitVec.extractLsb'_append_extractLsb'_eq_extractLsb']
  exact extractLsb'_and_of_eq_allOnes (by decide) w

theorem extractLsb'_zero_one (w : CmdWord) : w.extractLsb' 0 1 = BitVec.ofBool (w.getLsbD 0) := by
  ext i hi
  obtain rfl := Nat.lt_one_iff.1 hi
  simp

/-- The bit of the operand of `PSCHECK` (R98). -/
theorem pendingArg_getLsbD (w : CmdWord) :
    (w &&& 1).extractLsb' 0 56 = (0 : BitVec 55) ++ BitVec.ofBool (w.getLsbD 0) := by
  rw [← extractLsb'_zero_one]
  exact extractLsb'_and_lowMask w (k := 55) (n := 1) rfl

/-- An operand whose bits are those under its opcode's mask is encoded in the masked word. -/
theorem cmd_cmdWord_operandMask {op : Byte} {m : CmdWord} (hm : operandMask op = m) {w : CmdWord} {arg : BitVec 56}
    (harg : (w &&& m).extractLsb' 0 56 = arg) :
    Request.cmd (cmdWord op arg) = .cmd (cmdWord op ((w &&& operandMask op).extractLsb' 0 56)) := by
  rw [hm, harg]

/-- The operand bits that a row's instruction is encoded with are those its fields read (R98). -/
theorem encode_read (w : CmdWord) :
    ∀ r ∈ opRows, encode (r.read w) = .cmd (cmdWord r.op ((w &&& operandMask r.op).extractLsb' 0 56)) := by
  have hnone : (w &&& 0).extractLsb' 0 56 = 0 := by simp
  simp only [opRows, List.forall_mem_cons, encode]
  refine ⟨?start, ?rxbyte, ?rxend, ?decst1, ?decst2, ?decwr1, ?decwr2, ?decft1, ?decft2, ?compose, ?decode, ?encpoll, ?encclk,
    ?pspoll, ?pscheck, ?psval, List.forall_mem_nil _⟩
  case start | rxend | decode | encpoll | pspoll | psval => exact cmd_cmdWord_operandMask (by decide) hnone
  case rxbyte | decst1 | decst2 | decwr1 | decwr2 | decft1 | decft2 =>
    exact cmd_cmdWord_operandMask (by decide) (byteArg_byteAt w)
  case compose => exact cmd_cmdWord_operandMask (by decide) (composeArg_halfAt w)
  case encclk => exact cmd_cmdWord_operandMask (by decide) (clockArg_fields w)
  case pscheck => exact cmd_cmdWord_operandMask (by decide) (pendingArg_getLsbD w)

/-- Settles O8: the opcode selects a row, and the row's instruction is encoded in the bits its fields read. -/
theorem decodedWordIsEncodedOnUsedBits : Obligations.DecodedWordIsEncodedOnUsedBits := by
  intro w i h
  simp only [decode, decodeCmd] at h
  cases hrow : opRows.find? (fun r => r.op == opOf w) with
  | none => rw [hrow] at h; cases h
  | some r =>
    rw [hrow] at h
    obtain rfl := Except.ok.inj h
    have hrop : r.op = opOf w := by simpa only [beq_iff_eq] using List.find?_some hrow
    rw [encode_read w r (List.mem_of_find?_eq_some hrow), hrop, ← and_opMask_or, opMask]

end Sys2Proof
end

section
/-! The pseudo-operation `VALIDATE` of any buffer: streaming leaves the result of the function `Validate`, and a received buffer is
the same in one step (40_frame_parser.md R120, R130, R134, R135; 30_encoding.md R91, R103, R106). -/

namespace Sys2Proof.Machine

/-- In `LEN`, a length byte and the whole payload it announces lead to `CSUM`, with the payload in `PAY` and its sum in `SUM`
(R122, R124, R125). -/
theorem rxBytes_payload {s : State} (hf : s.parser.fsm = .len) {l : Byte} {p : List Byte} (hl : l.toNat = p.length + 1) :
    ∃ t, rxBytes (l :: p) s = .ok t ∧ t.parser.fsm = .csum ∧ t.parser.lenr = l ∧ t.parser.sum = sum8 p ∧
      t.parser.errc = s.parser.errc ∧ ∀ k, k < p.length → Mem.read t.parser.pay k = p[k]? := by
  have hl0 : l ≠ 0 := by
    rintro rfl
    exact absurd hl (Nat.succ_ne_zero _).symm
  have hstep : rxByte l s = .ok (rxLength l s) := by simp only [rxByte, hf]
  have hpar := rxLength_parser l s
  rw [if_neg hl0] at hpar
  simp only [rxBytes, hstep]
  cases p with
  | nil =>
    have h1 : l = 1 := BitVec.eq_of_toNat_eq hl
    rw [if_pos h1] at hpar
    refine ⟨rxLength l s, rfl, ?_⟩
    simp [hpar]
  | cons b p =>
    have h1 : l ≠ 1 := by
      rintro rfl
      simp at hl
    rw [if_neg h1] at hpar
    have hcnt : (rxLength l s).parser.cnt.toNat = 0 := by rw [hpar]; rfl
    have hlenr : (rxLength l s).parser.lenr = l := by rw [hpar]
    obtain ⟨t, ht, htf, htl, hts, hte, -, htp⟩ := rxBytes_payl_full (b :: p) (s := rxLength l s) (by rw [hpar])
      (List.cons_ne_nil b p) (by rw [hcnt, hlenr]; omega)
    refine ⟨t, ht, htf, htl.trans hlenr, ?_, ?_, fun k hk => ?_⟩
    · rw [hts, hpar]
      exact BitVec.zero_add _
    · rw [hte, hpar]
    · rw [htp, hcnt, if_pos (by omega), Nat.sub_zero]

/-- In `LEN` a length byte 0 is a short buffer, whatever follows (R124, R126). -/
theorem rxBytes_zero_length {s : State} (hf : s.parser.fsm = .len) (rest : List Byte) :
    ∃ t, rxBytes (0 :: rest) s = .ok t ∧ HoldsError (rxEnd t).parser .truncated := by
  have hstep : rxByte 0 s = .ok (rxLength 0 s) := by simp only [rxByte, hf]
  have herr : HoldsError (rxLength 0 s).parser .truncated := ⟨rfl, rfl⟩
  have hv : (rxLength 0 s).parser.fsm.verdict = true := rfl
  exact ⟨rxLength 0 s, by simp only [rxBytes, hstep, rxBytes_verdict hv], by rwa [rxEnd_of_verdict hv]⟩

/-- In `CSUM` the next byte decides the frame, and whatever follows changes nothing (R122, R126). -/
theorem rxBytes_checksum {s : State} (hf : s.parser.fsm = .csum) (c : Byte) (rest : List Byte) :
    rxBytes (c :: rest) s = .ok (rxChecksum c s) ∧ (rxChecksum c s).parser.fsm.verdict = true := by
  have hv : (rxChecksum c s).parser.fsm.verdict = true := by
    rw [rxChecksum_parser]
    split_ifs <;> rfl
  have hstep : rxByte c s = .ok (rxChecksum c s) := by simp only [rxByte, hf]
  exact ⟨by simp only [rxBytes, hstep, rxBytes_verdict hv], hv⟩

/-- `Validate` of a buffer with a whole frame in front compares the checksum byte with the payload's sum (R120). -/
theorem validate_whole_frame {l : Byte} {p : List Byte} (hl : l.toNat = p.length + 1) (c : Byte) (rest : List Byte) :
    validate (magic ++ l :: (p ++ c :: rest)) = if sum8 p = c then .ok p else .error .checksumMismatch := by
  have hc : (p ++ c :: rest).getD p.length 0 = c := by simp
  rw [validate_magic, hl, if_neg (Nat.succ_ne_zero _), if_neg (by simp), Nat.add_sub_cancel, List.take_left, hc, ite_not]

/-- Streaming a buffer with a whole frame in front: the payload and then the checksum byte. -/
theorem rxBytes_whole_frame {s : State} (hf : s.parser.fsm = .len) (he : s.parser.errc = .noError) {l : Byte} {p : List Byte}
    (hl : l.toNat = p.length + 1) (c : Byte) (rest : List Byte) :
    ∃ t, rxBytes (l :: (p ++ c :: rest)) s = .ok t ∧ HoldsVerdict (rxEnd t).parser (magic ++ l :: (p ++ c :: rest)) := by
  obtain ⟨u, hu, huf, hul, hus, hue, hup⟩ := rxBytes_payload hf hl
  obtain ⟨hstep, hv⟩ := rxBytes_checksum huf c rest
  refine ⟨rxChecksum c u, ?_, ?_⟩
  · rw [← List.cons_append, rxBytes_append, hu]
    exact hstep
  · rw [rxEnd_of_verdict hv, HoldsVerdict, validate_whole_frame hl, rxChecksum_parser, hus]
    by_cases hc : c = sum8 p
    · rw [if_pos hc, if_pos hc.symm]
      refine ⟨⟨rfl, hue.trans he, ?_, hup⟩, by rw [hul]; rfl⟩
      show (u.parser.lenr - 1).toNat = p.length
      rw [hul]
      bv_omega
    · rw [if_neg hc, if_neg (Ne.symm hc)]
      exact ⟨rfl, rfl⟩

/-- A list long enough for `l` bytes is the bytes before the last of them, that one, and the rest. -/
theorem exists_eq_append_cons {α : Type} {n : Nat} {xs : List α} (h : n < xs.length) :
    ∃ p c rest, xs = p ++ c :: rest ∧ p.length = n :=
  ⟨xs.take n, xs[n], xs.drop (n + 1), by rw [List.getElem_cons_drop, List.take_append_drop], by
    rw [List.length_take]
    omega⟩

/-- Streaming any buffer from the fresh parser, and ending it, leaves the result of `Validate` (R130): without the magic a header
error; with it the length byte is missing, is 0, asks for more than there is, or begins a whole frame. -/
theorem rxBytes_fresh_holdsVerdict (buf : List Byte) (s : State) :
    ∃ t, rxBytes buf (freshParser s) = .ok t ∧ HoldsVerdict (rxEnd t).parser buf := by
  by_cases hmagic : buf.take 4 = magic
  case neg =>
    have hpre : ¬ magicLeft (freshParser s).parser.fsm <+: buf := fun hp => hmagic (List.prefix_iff_eq_take.1 hp).symm
    obtain ⟨t, ht, herr⟩ := rxBytes_headerMismatch buf hpre
    exact ⟨t, ht, by rwa [HoldsVerdict, validate_of_not_magic hmagic]⟩
  obtain ⟨rest, rfl⟩ : magic <+: buf := List.prefix_iff_eq_take.2 hmagic.symm
  obtain ⟨u, hrun, huf, hue⟩ : ∃ u, rxBytes (magic ++ rest) (freshParser s) = rxBytes rest u ∧ u.parser.fsm = .len ∧
      u.parser.errc = .noError := ⟨_, rfl, rfl, rfl⟩
  rw [hrun]
  cases rest with
  | nil => exact ⟨u, rfl, rxEnd_of_body (.inl huf)⟩
  | cons l rest =>
    by_cases h0 : l = 0
    · obtain ⟨t, ht, herr⟩ := rxBytes_zero_length huf rest
      rw [h0]
      exact ⟨t, ht, by rwa [HoldsVerdict, validate_magic, if_pos (show (0 : Byte).toNat = 0 from rfl)]⟩
    have hpos : l.toNat ≠ 0 := fun h => h0 (BitVec.eq_of_toNat_eq h)
    by_cases hshort : rest.length < l.toNat
    · obtain ⟨t, ht, herr⟩ := rxBytes_truncated huf hshort
      exact ⟨t, ht, by rwa [HoldsVerdict, validate_magic, if_neg hpos, if_pos hshort]⟩
    · obtain ⟨p, c, rest, rfl, hp⟩ := exists_eq_append_cons (n := l.toNat - 1) (xs := rest) (by omega)
      exact rxBytes_whole_frame huf hue (by omega) c rest

theorem validateBuffer_of_rxBytes {buf : List Byte} {s t : State} (h : rxBytes buf (freshParser s) = .ok t) :
    validateBuffer buf s = .ok (rxEnd t) := by
  simp only [validateBuffer, h]

/-- Settles O17: `WIRE_RESP` and the operations of `VALIDATE` stream the same bytes. -/
theorem wireRespIsValidate : Obligations.WireRespIsValidate := by
  intro buf s
  obtain ⟨t, ht, hverdict⟩ := rxBytes_fresh_holdsVerdict buf s
  obtain ⟨hrun, honly⟩ := execAll_validateOps ht
  exact ⟨rxEnd t, by rw [exec, execWireResp, validateBuffer_of_rxBytes ht, finish], hrun, hverdict, honly⟩

/-- Settles O16: the operations of `VALIDATE` end where `WIRE_RESP` does. -/
theorem streamingAgreesWithValidate : Obligations.StreamingAgreesWithValidate := by
  intro buf s
  obtain ⟨t, -, hrun, hverdict, honly⟩ := wireRespIsValidate buf s
  exact ⟨t, hrun, hverdict, honly⟩

/-- A received buffer is validated, whether its first bytes are the magic or not (R91, R103). -/
theorem handleRequest_rx (buf : List Byte) (s : State) : handleRequest (.rx buf) s = exec (.wireResp buf) s := by
  rw [handleRequest, decode, decodeRx]
  by_cases h : buf.take 4 = magic
  · rw [if_pos h]
  · rw [if_neg h]
    rfl

/-- Settles O6: the step is `WIRE_RESP` of the buffer on the state with the input taken. -/
theorem everyReceivedBufferGetsItsVerdict : Obligations.EveryReceivedBufferGetsItsVerdict := by
  intro s buf rest hport
  obtain ⟨t, hexec, -, hverdict, honly⟩ := wireRespIsValidate buf { s with port := rest }
  refine ⟨t, ?_, hverdict, honly⟩
  simp only [step, hport]
  rw [handleRequest_rx, hexec]

/-- Settles O21: without the magic both fail alike; with it the buffer is the magic and a length byte 0 or a whole frame, and
`Validate` looks at nothing behind either. -/
theorem trailingBytesAreIgnored : Obligations.TrailingBytesAreIgnored := by
  intro buf extra l hl hlen
  have htake : (buf ++ extra).take 4 = buf.take 4 := List.take_append_of_le_length (by omega)
  by_cases hmagic : buf.take 4 = magic
  case neg => rw [validate_of_not_magic hmagic, validate_of_not_magic (htake ▸ hmagic)]
  obtain ⟨rest, rfl⟩ : magic <+: buf := List.prefix_iff_eq_take.2 hmagic.symm
  cases rest with
  | nil => cases hl
  | cons l' rest =>
    obtain rfl : l' = l := Option.some_inj.1 hl
    have hrest : rest.length = l'.toNat := by
      rw [List.length_append, List.length_cons] at hlen
      have h4 : magic.length = 4 := rfl
      omega
    rw [List.append_assoc, List.cons_append]
    by_cases h0 : l'.toNat = 0
    · rw [validate_magic, validate_magic, if_pos h0, if_pos h0]
    · obtain ⟨p, c, tail, rfl, hp⟩ := exists_eq_append_cons (n := l'.toNat - 1) (xs := rest) (by omega)
      rw [List.append_assoc, List.cons_append, validate_whole_frame (by omega), validate_whole_frame (by omega)]

theorem sum8_perm {p q : List Byte} (h : p.Perm q) : sum8 p = sum8 q := by
  induction h with
  | nil => rfl
  | cons b _ ih => rw [sum8_cons, sum8_cons, ih]
  | swap b c p =>
    simp only [sum8_cons]
    ac_rfl
  | trans _ _ ih₁ ih₂ => exact ih₁.trans ih₂

/-- Settles O22: the sum does not depend on the order of the bytes, nor does the length. -/
theorem reorderedPayloadStillValidates : Obligations.ReorderedPayloadStillValidates := by
  intro p q hperm hp
  rw [hperm.length_eq] at hp ⊢
  rw [List.append_assoc, List.cons_append, validate_frame hp, if_pos (sum8_perm hperm).symm]

end Sys2Proof.Machine
end

section
/-! The bit tables and the masks: a table names exactly the bits of its role's mask, and each mask has its number of bits
(41_bitfield_decoder.md R150 to R156). -/

namespace Sys2Proof.Machine

theorem mem_namedBits (m : Byte) (k : Nat) : k ∈ namedBits m ↔ m.getLsbD k = true := by
  rw [namedBits, List.mem_filter, List.mem_range, and_iff_right_iff_imp]
  exact BitVec.lt_of_getLsbD

theorem popcount_maskWr2 (P : Params) : popcount (maskWr2 P) = 5 := by
  rw [maskWr2]
  by_cases h : popcount P.wr2 = 5
  · rw [if_pos h, h]
  · rw [if_neg h]
    decide

/-- Naming the bits of a mask leaves no bit out where there is a name for each. -/
theorem snd_zip_namedBits {names : List String} {m : Byte} (h : popcount m ≤ names.length) :
    (names.zip (namedBits m)).map Prod.snd = namedBits m :=
  List.map_snd_zip h

theorem getLsbD_maskFt2 (P : Params) (k : Nat) : (maskFt2 P).getLsbD k = true ↔ k = P.ft2Bit.val := by
  have hlt := P.ft2Bit.isLt
  rw [maskFt2_eq_twoPow, BitVec.getLsbD_twoPow]
  simp only [Bool.and_eq_true, decide_eq_true_eq]
  omega

/-- The bits a role's table names are those of its mask (R151 to R156). -/
theorem mem_snd_tableOf (P : Params) (r : Role) (k : Nat) :
    k ∈ (tableOf P r).map Prod.snd ↔ (maskOf P r).getLsbD k = true := by
  cases r
  case st1 =>
    have hperm : [3, 2, 1, 0].Perm (namedBits 0x0F) := by decide
    rw [← mem_namedBits]
    exact hperm.mem_iff
  case st2 =>
    have hperm : [1, 0].Perm (namedBits 0x03) := by decide
    rw [← mem_namedBits]
    exact hperm.mem_iff
  case wr1 | ft1 =>
    rw [← mem_namedBits, tableOf, snd_zip_namedBits (by rw [Vector.length_toList]; decide), maskOf]
  case wr2 =>
    rw [← mem_namedBits, tableOf, snd_zip_namedBits (by rw [Vector.length_toList, popcount_maskWr2]), maskOf]
  case ft2 => rw [maskOf, getLsbD_maskFt2, tableOf, List.map_cons, List.map_nil, List.mem_singleton]

/-- Settles O25: a pair of the table stands at a bit of the mask, which is stored as it comes, and a bit without a pair is
none of the mask's. -/
theorem flagRegistersAgreeWithTables : Obligations.FlagRegistersAgreeWithTables := by
  intro P r b
  constructor
  · intro e he
    obtain ⟨p, hp, rfl⟩ := List.mem_map.1 he
    exact ⟨p.2, hp, getLsbD_maskedFlags_of_named ((mem_snd_tableOf P r p.2).1 (List.mem_map_of_mem hp)) b⟩
  · intro k hk
    have hmask : (maskOf P r).getLsbD k = false := by
      rw [← Bool.not_eq_true, ← mem_snd_tableOf, List.mem_map]
      rintro ⟨⟨name, k'⟩, hp, rfl⟩
      exact hk name hp
    rw [getLsbD_maskedFlags, hmask, Bool.false_and]

/-- Settles O26: four masks are fixed, `MASK_WR2` is chosen to have five bits, and `MASK_FT2` is one of eight. -/
theorem masksHaveTheirBitCounts : Obligations.MasksHaveTheirBitCounts := by
  intro P
  have hft2 : ∀ k : Fin 8, popcount (BitVec.ofNat 8 (2 ^ k.val)) = 1 := by decide
  have hst1 : popcount 0x0F = 4 := by decide
  have hst2 : popcount 0x03 = 2 := by decide
  have hfull : popcount 0xFF = 8 := by decide
  exact ⟨hst1, hst2, hfull, popcount_maskWr2 P, hfull, hft2 P.ft2Bit, fun m hm => if_pos hm⟩

end Sys2Proof.Machine
end

section
/-! Exact decimals: their representation keeps both parts, and their text has its digits after the point (00_scope.md R15, R16;
42_fixed_point_composer.md R174). -/

namespace Sys2Proof.Machine

/-- The parts are the quotient and the remainder of the mantissa by a power that the digit count gives (R174). -/
theorem compose_inj {i f j g : Nat} : compose i f = compose j g ↔ i = j ∧ f = g := by
  constructor
  · intro h
    have hd : ndigits f = ndigits g := congrArg ExactDecimal.d h
    obtain ⟨hi, hf⟩ := compose_div_mod i f
    obtain ⟨hj, hg⟩ := compose_div_mod j g
    rw [h, hd] at hi hf
    exact ⟨hi.symm.trans hj, hf.symm.trans hg⟩
  · rintro ⟨rfl, rfl⟩
    rfl

/-- Settles O30: the first part is `compose_inj`; `5.7` and `5.70` are computed. -/
theorem representationKeepsBothParts : Obligations.RepresentationKeepsBothParts :=
  ⟨fun _ _ _ _ => compose_inj, by decide, fun h => absurd (compose_inj.1 h).2 (by decide)⟩

/-- Zeros in front do not change the number (R15). -/
theorem decimalValue_zeros_append (z : Nat) (t : Text) : decimalValue (List.replicate z '0' ++ t) = decimalValue t := by
  induction z with
  | zero => rfl
  | succ z ih => rw [List.replicate_succ, List.cons_append, ← ih]; rfl

theorem decimalValue_pad (n w : Nat) : decimalValue (pad n w) = n := by
  rw [pad, decimalValue_zeros_append, decimalValue_dec]

theorem mem_pad_between {c : Char} {n w : Nat} (hc : c ∈ pad n w) : '0' ≤ c ∧ c ≤ '9' := by
  rw [pad, List.mem_append] at hc
  obtain hc | hc := hc
  · rw [List.eq_of_mem_replicate hc]
    decide
  · exact mem_dec_between hc

/-- A number below `10^D` is padded to exactly `D` digits (R15, R16). -/
theorem pad_length_of_lt_pow {n d : Nat} (hd : 0 < d) (h : n < 10 ^ d) : (pad n d).length = d := by
  rw [pad_length, max_eq_left (ndigits_le_of_lt_pow hd h)]

/-- Settles O59: the digits after the point are the remainder by `10^D`, padded to `D` places. -/
theorem exactDecimalTextHasItsDigits : Obligations.ExactDecimalTextHasItsDigits := fun x =>
  ⟨ExactDecimal.text_of_zero, fun hd => ⟨pad (x.m % 10 ^ x.d) x.d, ExactDecimal.text_of_pos hd,
    pad_length_of_lt_pow hd (Nat.mod_lt _ (by positivity)), decimalValue_pad _ _, fun _ => mem_pad_between⟩⟩

end Sys2Proof.Machine
end

section
/-! The charging power: `Round3` is a nearest integer of thousandths of the exact product, and it fits its register
(43_telemetry_decoder.md R192, R197; 10_state.md R34). -/

namespace Sys2Proof.Machine

section Rounding

variable (tieUp : Nat → Nat → Nat → Nat → Bool) (v i f : Nat)

/-- With one or two digits after the point the thousandths are whole (R197). -/
theorem round3_exact {d : Nat} (hd : d = 1 ∨ d = 2) :
    round3 tieUp v i f d * 10 ^ (d + 1) = v * (i * 10 ^ d + f) * 1000 := by
  obtain rfl | rfl := hd
  · simp only [round3, if_true]
    omega
  · simp only [round3, if_true, OfNat.ofNat_ne_one, if_false]
    omega

/-- With more digits the result is the quotient by `10^(D-2)` or the number after it, whichever is not farther (R197). -/
theorem round3_nearest {d : Nat} (hd : 3 ≤ d) :
    2 * (round3 tieUp v i f d * 10 ^ (d - 2)) ≤ 2 * (v * (i * 10 ^ d + f)) + 10 ^ (d - 2) ∧
      2 * (v * (i * 10 ^ d + f)) ≤ 2 * (round3 tieUp v i f d * 10 ^ (d - 2)) + 10 ^ (d - 2) := by
  have hpos : 0 < 10 ^ (d - 2) := by positivity
  rw [round3, if_neg (by omega), if_neg (by omega)]
  dsimp only
  generalize v * (i * 10 ^ d + f) = num
  generalize 10 ^ (d - 2) = den at hpos ⊢
  have hdiv := Nat.div_add_mod' num den
  have hmod := Nat.mod_lt num hpos
  have hnext : (num / den + 1) * den = num / den * den + den := Nat.succ_mul _ _
  split_ifs with hdown hup htie
  · omega
  · omega
  · omega
  · omega

/-- `Round3` is within one half of the exact product in thousandths, scaled by `10^(D+1)`. -/
theorem round3_within_half {d : Nat} (hd : 0 < d) :
    2 * (round3 tieUp v i f d * 10 ^ (d + 1)) ≤ 2 * (v * (i * 10 ^ d + f) * 1000) + 10 ^ (d + 1) ∧
      2 * (v * (i * 10 ^ d + f) * 1000) ≤ 2 * (round3 tieUp v i f d * 10 ^ (d + 1)) + 10 ^ (d + 1) := by
  by_cases h : 3 ≤ d
  · have hpow : 10 ^ (d + 1) = 10 ^ (d - 2) * 1000 := by
      rw [show d + 1 = d - 2 + 3 by omega, pow_add]
      rfl
    obtain ⟨hlow, hhigh⟩ := round3_nearest tieUp v i f h
    have hscale : round3 tieUp v i f d * (10 ^ (d - 2) * 1000) = round3 tieUp v i f d * 10 ^ (d - 2) * 1000 :=
      (Nat.mul_assoc _ _ _).symm
    rw [hpow, hscale]
    omega
  · rw [round3_exact tieUp v i f (by omega)]
    exact ⟨Nat.le_add_right _ _, Nat.le_add_right _ _⟩

/-- Of 16-bit operands the product is below `2^16 * 2^16` units, each of 100 thousandths (R34). -/
theorem round3_lt {v i f : Nat} (hv : v < 2 ^ 16) (hi : i < 2 ^ 16) : round3 tieUp v i f (ndigits f) < 2 ^ 39 := by
  obtain ⟨hround, -⟩ := round3_within_half tieUp v i f (ndigits_pos f)
  have hpow : 10 ^ (ndigits f + 1) = 10 ^ ndigits f * 10 := pow_succ _ _
  have hscale : 0 < 10 ^ ndigits f := by positivity
  have hpart : i * 10 ^ ndigits f + f ≤ 2 ^ 16 * 10 ^ ndigits f := by
    have hmul : (i + 1) * 10 ^ ndigits f ≤ 2 ^ 16 * 10 ^ ndigits f := Nat.mul_le_mul_right _ hi
    have hf := lt_pow_ndigits f
    rw [Nat.succ_mul] at hmul
    omega
  have hprod : v * (i * 10 ^ ndigits f + f) ≤ (2 ^ 16 - 1) * (2 ^ 16 * 10 ^ ndigits f) :=
    Nat.mul_le_mul (Nat.le_sub_one_of_lt hv) hpart
  rw [hpow] at hround
  generalize round3 tieUp v i f (ndigits f) = power at hround ⊢
  generalize 10 ^ ndigits f = scale at hround hprod hscale
  by_contra hlarge
  have hmul : 2 ^ 39 * (scale * 10) ≤ power * (scale * 10) := Nat.mul_le_mul_right _ (Nat.not_lt.1 hlarge)
  omega

end Rounding

/-- Settles O36: `round3_exact` and `round3_within_half` at the digit count of `f`. -/
theorem chargingPowerIsNearest : Obligations.ChargingPowerIsNearest := by
  intro tieUp v i f d exact got
  obtain ⟨hlow, hhigh⟩ := round3_within_half tieUp v i f (ndigits_pos f)
  refine ⟨hlow, hhigh, fun hd => round3_exact tieUp v i f ?_⟩
  have hpos := ndigits_pos f
  omega

/-- `T_CP` holds `Round3` uncut where the current is a coherent triple (R34, R192). -/
theorem chargingPowerReg_toNat {P : Params} (bv : Half) {cc : Composed} (hcc : cc.Coherent) :
    (chargingPowerReg P bv cc).toNat = round3 P.tieUp bv.toNat cc.i.toNat cc.f.toNat (ndigits cc.f.toNat) ∧
      (chargingPowerReg P bv cc).toNat < 2 ^ 39 := by
  have hlt := round3_lt P.tieUp (f := cc.f.toNat) bv.isLt cc.i.isLt
  have heq : (chargingPowerReg P bv cc).toNat = round3 P.tieUp bv.toNat cc.i.toNat cc.f.toNat (ndigits cc.f.toNat) := by
    rw [chargingPowerReg, hcc, BitVec.toNat_ofNat, Nat.mod_eq_of_lt (by omega)]
  exact ⟨heq, heq ▸ hlt⟩

/-- Settles O37: the decoded current is a coherent triple. -/
theorem chargingPowerFitsItsRegister : Obligations.ChargingPowerFitsItsRegister := fun s w h =>
  ⟨storeTelemetry Config.params w s, exec_decode_of_decodable h, chargingPowerReg_toNat _ (comp_coherent w _ _)⟩

end Sys2Proof.Machine
end

section
/-! `DECODE` again, and from other states: the old state enters a successful `DECODE` only by a stale `T_BTEMP`
(43_telemetry_decoder.md R186, R206). -/

namespace Sys2Proof.Machine

/-- `DECODE` reads only the payload of the parser (R185). -/
theorem Decodable.of_parser_eq {s t : State} {w : Window} (h : Decodable s w) (ht : t.parser = s.parser) : Decodable t w := by
  rwa [Decodable, ht]

theorem sentinel_sentinel (b old : Byte) : sentinel b (sentinel b old).2 = sentinel b old := by
  by_cases h : b = 255
  · simp only [sentinel, if_pos h]
  · simp only [sentinel, if_neg h]

theorem decodeRecord_decodeRecord (P : Params) (w : Window) (old : Telemetry) :
    decodeRecord P w (decodeRecord P w old) = decodeRecord P w old := by
  have hsent := sentinel_sentinel (u8 w P.layout.btemp) old.btemp
  simp only [decodeRecord, hsent]

theorem storeTelemetry_storeTelemetry (P : Params) (w : Window) (s : State) :
    storeTelemetry P w (storeTelemetry P w s) = storeTelemetry P w s := by
  simp only [storeTelemetry, decodeRecord_decodeRecord]

theorem decodeOp_decodeOp {P : Params} {s t : State} (h : decodeOp P s = .ok t) : decodeOp P t = .ok t := by
  obtain ⟨hf, rfl⟩ | ⟨hf, hlen, rfl⟩ | ⟨w, hw, rfl⟩ := decodeOp_cases h
  · exact decodeOp_of_ne_ok (s := refuse s) hf P
  · exact decodeOp_of_short (s := raise .tele .truncated s) hf hlen P
  · rw [decodeOp_of_decodable (hw.of_parser_eq (storeTelemetry_parser P w s)), storeTelemetry_storeTelemetry]

/-- Settles O38: a refusal, a short payload and a stored record are each done again on the same payload. -/
theorem decodeTwiceIsDecodeOnce : Obligations.DecodeTwiceIsDecodeOnce := by
  intro s t h
  rw [exec, execDecode, decodeOp_decodeOp (finish_next h), finish]

/-- A temperature that is there is the payload's byte (R194). -/
theorem sentinel_snd_of_fst {b old : Byte} (h : (sentinel b old).1 = true) : (sentinel b old).2 = b := by
  by_cases hb : b = 255
  · simp [sentinel, hb] at h
  · rw [sentinel, if_neg hb]

/-- Whether the temperature is there is the payload's byte alone (R194). -/
theorem sentinel_fst (b old : Byte) : (sentinel b old).1 = (b != 255) := by
  by_cases hb : b = 255
  · rw [sentinel, if_pos hb, hb]
    rfl
  · rw [sentinel, if_neg hb, bne_iff_ne.2 hb]

/-- Two old records give the same record but for a stale `T_BTEMP` (R206). -/
theorem decodeRecord_indep (P : Params) (w : Window) (old old' : Telemetry) :
    { decodeRecord P w old with btemp := 0 } = { decodeRecord P w old' with btemp := 0 } ∧
      ((decodeRecord P w old).btempV = true → (decodeRecord P w old).btemp = (decodeRecord P w old').btemp) := by
  have hfst : (decodeRecord P w old).btempV = (decodeRecord P w old').btempV :=
    (sentinel_fst _ _).trans (sentinel_fst _ _).symm
  constructor
  · simp only [decodeRecord, sentinel_fst]
  · intro h
    exact (sentinel_snd_of_fst h).trans (sentinel_snd_of_fst (hfst.symm.trans h)).symm

/-- Settles O39: the flags are a function of the payload, and so is the record but for a stale `T_BTEMP`. -/
theorem decodeDependsOnPayloadOnly : Obligations.DecodeDependsOnPayloadOnly := fun _ _ w h h' =>
  ⟨_, _, exec_decode_of_decodable h, exec_decode_of_decodable h', rfl, rfl, rfl, decodeRecord_indep _ w _ _⟩

end Sys2Proof.Machine
end

section
/-! Single steps and operations: what the step does with each kind of input, and operations in states where they are refused, short
or out of range (00_scope.md R11; 30_encoding.md R96 to R100; 60_exceptions.md R268; 70_reset_and_hazards.md R290, R291). -/

namespace Sys2Proof.Machine

theorem step_of_nil {s : State} (h : s.port = []) : step s = .next s := by
  simp only [step, h]

theorem step_of_reset {s : State} {rest : List Input} (h : s.port = .reset :: rest) :
    step s = .next (resetEvent { s with port := rest }) := by
  simp only [step, h]

theorem step_of_request {s : State} {r : Request} {rest : List Input} (h : s.port = .request r :: rest) :
    step s = handleRequest r { s with port := rest } := by
  simp only [step, h]

/-- Everything a step that answers can do: nothing, the reset event, or the next request (R290, R291). -/
theorem step_cases {s t : State} (h : step s = .next t) :
    (s.port = [] ∧ t = s) ∨ (∃ rest, s.port = .reset :: rest ∧ t = resetEvent { s with port := rest }) ∨
      ∃ r rest, s.port = .request r :: rest ∧ handleRequest r { s with port := rest } = .next t := by
  cases hport : s.port with
  | nil =>
    rw [step_of_nil hport, Host.Outcome.next.injEq] at h
    exact .inl ⟨rfl, h.symm⟩
  | cons input rest =>
    cases input with
    | reset =>
      rw [step_of_reset hport, Host.Outcome.next.injEq] at h
      exact .inr (.inl ⟨rest, rfl, h.symm⟩)
    | request r =>
      rw [step_of_request hport] at h
      exact .inr (.inr ⟨r, rest, rfl, h⟩)

/-- Everything a request that is answered can do: an instruction (a buffer without the magic is validated as `WIRE_RESP` is), or the
refusal of an undefined opcode (R100, R103). -/
theorem handleRequest_cases {r : Request} {s t : State} (h : handleRequest r s = .next t) :
    (∃ i, exec i s = .next t) ∨ t = refuse s := by
  rw [handleRequest] at h
  cases hdec : decode r with
  | ok i =>
    rw [hdec] at h
    exact .inl ⟨i, h⟩
  | error e =>
    rw [hdec] at h
    cases e with
    | undefinedOpcode op => exact .inr (Host.Outcome.next.inj h).symm
    | notMagic buf => exact .inl ⟨.wireResp buf, h⟩
    | notOutbound bytes => cases h

theorem handleRequest_of_decode {r : Request} {i : Instr} (h : decode r = .ok i) (s : State) : handleRequest r s = exec i s := by
  rw [handleRequest, h]

/-- Settles O1: the step handles the request, and the request is the instruction. -/
theorem stepRunsDecodedInstruction : Obligations.StepRunsDecodedInstruction := fun s r rest i hport hdec => by
  rw [step_of_request hport, handleRequest_of_decode hdec]

/-- Settles O2: the step's first case. -/
theorem idleStepChangesNothing : Obligations.IdleStepChangesNothing := fun _ => step_of_nil

/-- `STATUS` reads 0 after reset (R28, R44). -/
theorem status_afterReset (k : Nat) (port : List Input) : (State.afterReset k port).status = 0 := by
  simp only [State.status, State.afterReset, ErrCode.code, Ps.code, Fsm.code]
  decide

/-- Settles O3: each register is read off the state after reset, and an array without written bytes reads none. -/
theorem resetHoldsSpecValues : Obligations.ResetHoldsSpecValues :=
  ⟨rfl, rfl, rfl, rfl, rfl, rfl, rfl, rfl, rfl, rfl, rfl, rfl, rfl, status_afterReset 0 [], fun _ => ⟨rfl, rfl⟩⟩

/-- Settles O4: the reset event leaves the state after reset with the later inputs in place. -/
theorem resetEventRestoresSpecValues : Obligations.ResetEventRestoresSpecValues := fun _ _ hport =>
  ⟨_, step_of_reset hport, rfl, rfl, rfl, rfl, rfl, rfl, rfl, rfl, rfl, rfl, rfl, rfl, rfl,
    status_afterReset _ _, rfl, fun _ => ⟨rfl, rfl⟩⟩

/-- Settles O5: the request is rejected by its opcode and refused. -/
theorem undefinedOpcodesAreRefused : Obligations.UndefinedOpcodesAreRefused := fun s w rest hport hop => by
  rw [step_of_request hport, handleRequest_of_undefined hop, refuse]

/-- Settles O10: the eight words are decoded. -/
theorem specWordsDecode : Obligations.SpecWordsDecode := by
  unfold Obligations.SpecWordsDecode
  decide

/-- Settles O13: the payload store is outside `PAY`. -/
theorem rxbytePastPayStops : Obligations.RxbytePastPayStops := by
  intro b s hf hcnt
  have hpast : ¬ s.parser.cnt.toNat < paySize := Nat.not_lt.2 hcnt
  simp only [exec, execRxbyte, rxByte, hf, rxPayload, if_neg hpast, finish]

/-- Settles O31: without a validated frame `DECODE` is not admitted. -/
theorem decodeWithoutFrameIsRefused : Obligations.DecodeWithoutFrameIsRefused := fun _ hf => exec_of_not_admitted hf

/-- Settles O32: the short arm of `DECODE`. -/
theorem decodeOfShortPayloadIsTruncated : Obligations.DecodeOfShortPayloadIsTruncated := fun s hf hlen => by
  rw [exec, execDecode, decodeOp_of_short hf hlen, finish, raise]

/-- Settles O43: each wire unit runs the encoder's own operation. -/
theorem outboundWireUnitsAreProduced : Obligations.OutboundWireUnitsAreProduced := fun _ _ _ _ _ _ _ =>
  ⟨⟨_, rfl, rfl⟩, ⟨_, rfl, rfl⟩⟩

/-- Settles O58: `0 - 1` in eight bits. -/
theorem rxbyteZeroLengthWraps : Obligations.RxbyteZeroLengthWraps := by
  intro s hf hl
  simp only [exec, execRxbyte, rxByte, hf, rxChecksum, if_true, hl, finish]
  rfl

/-- Settles O57: an instruction answers a next state, or what an operation that may meet a fault answers. -/
theorem noInstructionIsRefused : Obligations.NoInstructionIsRefused := by
  intro i s r
  cases i
  case rxbyte | wireResp | decode | psval => exact finish_ne_refused _ r
  case start | rxend | decst1 | decst2 | decwr1 | decwr2 | decft1 | decft2 | compose | encpoll | encclk | pspoll | pscheck |
      wirePoll | wireSetclk => nofun

end Sys2Proof.Machine
end

section
/-! Which units an instruction can write, and what follows: a verdict is final, `PS` changes along its table, `CMDERR` is sticky
(10_state.md section 2; 40_frame_parser.md R129; 45_poll_session.md R244). -/

namespace Sys2Proof.Machine

/-- `DECODE` writes `CMDERR`, the flags and the telemetry at most (R186, R268). -/
theorem decodeOp_frame {P : Params} {s t : State} (h : decodeOp P s = .ok t) :
    t = { s with cmderr := t.cmderr, flg := t.flg, tele := t.tele } := by
  obtain ⟨-, rfl⟩ | ⟨-, -, rfl⟩ | ⟨w, -, rfl⟩ := decodeOp_cases h <;> rfl

/-- `PSPOLL` writes `CMDERR`, the transmit buffer and the session at most (R236). -/
theorem pollStart_frame (s : State) :
    pollStart s = { s with cmderr := (pollStart s).cmderr, tx := (pollStart s).tx, sess := (pollStart s).sess } := by
  obtain ⟨-, h⟩ | ⟨-, h⟩ := pollStart_cases s <;> rw [h] <;> rfl

/-- `PSCHECK 0` writes `CMDERR` and the session at most (R238). -/
theorem pollCheck_false_frame (P : Params) (s : State) :
    pollCheck P false s = { s with cmderr := (pollCheck P false s).cmderr, sess := (pollCheck P false s).sess } := by
  by_cases h : s.sess.ps = .await
  · rw [pollCheck_false_of_await h]
  · rw [pollCheck_of_ne_await h]
    rfl

/-- `PSCHECK 1` writes `CMDERR`, the parser and the session at most (R238). -/
theorem pollCheck_true_frame (P : Params) (s : State) :
    pollCheck P true s = { s with
      cmderr := (pollCheck P true s).cmderr, parser := (pollCheck P true s).parser, sess := (pollCheck P true s).sess } := by
  by_cases h : s.sess.ps = .await
  · rw [pollCheck_true_of_await h]
    rfl
  · rw [pollCheck_of_ne_await h]
    rfl

/-- `PSVAL` writes `CMDERR`, the session and what `DECODE` writes at most (R239). -/
theorem pollValidate_frame {P : Params} {s t : State} (h : pollValidate P s = .ok t) :
    t = { s with cmderr := t.cmderr, flg := t.flg, tele := t.tele, sess := t.sess } := by
  obtain ⟨-, rfl⟩ | ⟨-, -, rfl⟩ | ⟨-, -, -, rfl⟩ | ⟨-, w, -, rfl⟩ := pollValidate_cases h <;> rfl

/-- The four instructions of the parser write the parser only. -/
theorem onlyParser_exec {i : Instr} {s t : State}
    (hi : i = .start ∨ i = .rxend ∨ (∃ b, i = .rxbyte b) ∨ ∃ buf, i = .wireResp buf) (h : exec i s = .next t) :
    OnlyParser s t := by
  obtain rfl | rfl | ⟨b, rfl⟩ | ⟨buf, rfl⟩ := hi
  · obtain rfl := Host.Outcome.next.inj h
    exact onlyParser_freshParser s
  · obtain rfl := Host.Outcome.next.inj h
    exact onlyParser_rxEnd s
  · exact onlyParser_rxByte (finish_next h)
  · exact onlyParser_validateBuffer (finish_next h)

/-- The encoder's instructions and the outbound wire units write the transmit buffer only. -/
theorem onlyTransmit_exec {i : Instr} {s t : State}
    (hi : i = .encpoll ∨ i = .wirePoll ∨
      ∃ y mo d h mi se, i = .encclk y mo d h mi se ∨ i = .wireSetclk y mo d h mi se) (h : exec i s = .next t) :
    OnlyTransmit s t := by
  obtain rfl | rfl | ⟨y, mo, d, hr, mi, se, rfl | rfl⟩ := hi
  all_goals
    obtain rfl := Host.Outcome.next.inj h
    exact onlyTransmit_sendBytes _ s

/-- Settles O52: each instruction leaves all units but its own, by its frame. -/
theorem eachUnitHasItsWriters : Obligations.EachUnitHasItsWriters := by
  intro i s t h
  have same : ∀ {α : Type} {a : α} {p : Prop}, a ≠ a → p := fun hne => absurd rfl hne
  cases i
  case start | rxend | rxbyte | wireResp =>
    rw [onlyParser_exec (by simp) h]
    exact ⟨same, same, same, same, same, fun _ => by simp, rfl, rfl⟩
  case encpoll | encclk | wirePoll | wireSetclk =>
    rw [onlyTransmit_exec (by simp) h]
    exact ⟨same, same, same, fun _ => by simp, same, same, rfl, rfl⟩
  case decode =>
    rw [decodeOp_frame (finish_next h)]
    exact ⟨fun _ => by simp, fun _ => by simp, same, same, same, same, rfl, rfl⟩
  case psval =>
    rw [pollValidate_frame (finish_next h)]
    exact ⟨fun _ => by simp, fun _ => by simp, same, same, fun _ => by simp, same, rfl, rfl⟩
  all_goals obtain rfl := Host.Outcome.next.inj h
  case decst1 | decst2 | decwr1 | decwr2 | decft1 | decft2 => exact ⟨same, fun _ => by simp, same, same, same, same, rfl, rfl⟩
  case compose => exact ⟨same, same, fun _ => by simp, same, same, same, rfl, rfl⟩
  case pspoll =>
    rw [pollStart_frame]
    exact ⟨same, same, same, fun _ => by simp, fun _ => by simp, same, rfl, rfl⟩
  case pscheck p =>
    cases p with
    | false =>
      rw [pollCheck_false_frame]
      exact ⟨same, same, same, same, fun _ => by simp, same, rfl, rfl⟩
    | true =>
      rw [pollCheck_true_frame]
      exact ⟨same, same, same, same, fun _ => by simp, fun _ => by simp, rfl, rfl⟩

/-- Settles O15: of the parser's other writers, `RXBYTE` and `RXEND` do nothing after a verdict. -/
theorem verdictIsFinal : Obligations.VerdictIsFinal := by
  intro i s t hv h hstart hcheck hwire
  by_contra hne
  obtain ⟨-, -, -, -, -, hparser, -, -⟩ := eachUnitHasItsWriters i s t h
  obtain rfl | rfl | rfl | ⟨b, rfl⟩ | ⟨buf, rfl⟩ := hparser hne
  · exact hstart rfl
  · rw [exec, execRxend, rxEnd_of_verdict hv, Host.Outcome.next.injEq] at h
    exact hne (h ▸ rfl)
  · exact hcheck rfl
  · have hstep := finish_next h
    rw [rxByte_verdict hv, Except.ok.injEq] at hstep
    exact hne (hstep ▸ rfl)
  · exact hwire buf rfl

theorem Ps.eq_of_active_eq_false {p : Ps} (h : p.active = false) : p = .idle ∨ p = .done ∨ p = .failed := by
  cases p
  case idle => exact .inl rfl
  case done => exact .inr (.inl rfl)
  case failed => exact .inr (.inr rfl)
  case await | validating => cases h

/-- Settles O47: only the session's instructions write it, and each of their cases that changes `PS` is a line of the table. -/
theorem sessionTransitions : Obligations.SessionTransitions := by
  intro i s t h hne
  obtain ⟨-, -, -, -, hsess, -⟩ := eachUnitHasItsWriters i s t h
  obtain rfl | rfl | ⟨p, rfl⟩ := hsess fun he => hne (congrArg SessRegs.ps he)
  · refine .inl ⟨rfl, ?_⟩
    obtain rfl := Host.Outcome.next.inj h
    obtain ⟨-, heq⟩ | ⟨hact, heq⟩ := pollStart_cases s
    · exact absurd (by rw [heq]; rfl) hne
    · exact ⟨Ps.eq_of_active_eq_false hact, by rw [heq]⟩
  · refine .inr (.inr (.inr ⟨rfl, ?_⟩))
    obtain ⟨-, rfl⟩ | ⟨hps, -, rfl⟩ | ⟨hps, -, -, rfl⟩ | ⟨hps, w, -, rfl⟩ := pollValidate_cases (finish_next h)
    · exact absurd rfl hne
    · exact ⟨hps, .inr rfl⟩
    · exact ⟨hps, .inr rfl⟩
    · exact ⟨hps, .inl rfl⟩
  · obtain rfl := Host.Outcome.next.inj h
    obtain ⟨-, heq⟩ | ⟨hps, rfl, heq⟩ | ⟨hps, rfl, -, heq⟩ | ⟨hps, rfl, -, heq⟩ := pollCheck_cases Config.params p s
    · exact absurd (by rw [heq]; rfl) hne
    · exact .inr (.inr (.inl ⟨rfl, hps, by rw [heq]⟩))
    · exact .inr (.inl ⟨rfl, hps, by rw [heq], by rw [heq]⟩)
    · exact absurd (by rw [heq]) hne

/-- No instruction clears `CMDERR`: it sets it where it is not admitted and leaves it alone elsewhere (R29). -/
theorem exec_cmderr_sticky {i : Instr} {s t : State} (h : exec i s = .next t) (hs : s.cmderr = true) : t.cmderr = true := by
  by_cases hadm : Admitted i s
  · rw [cmderr_of_admitted hadm h, hs]
  · rw [exec_of_not_admitted hadm, Host.Outcome.next.injEq] at h
    rw [← h, refuse_cmderr]

/-- Settles O50: a request runs an instruction or is refused. -/
theorem cmderrIsSticky : Obligations.CmderrIsSticky := by
  intro s t h
  obtain ⟨hport, rfl⟩ | ⟨rest, hport, rfl⟩ | ⟨r, rest, hport, hreq⟩ := step_cases h
  · rw [hport]
    exact ⟨nofun, fun _ hs => hs⟩
  · exact ⟨fun _ _ => resetEvent_cmderr _, fun hno => absurd hport (hno rest)⟩
  · rw [hport]
    refine ⟨nofun, fun _ hs => ?_⟩
    obtain ⟨i, hi⟩ | rfl := handleRequest_cases hreq
    · exact exec_cmderr_sticky hi hs
    · exact refuse_cmderr _

end Sys2Proof.Machine
end

section
/-! The invariant: the state after reset meets it, every step keeps it, and from a state that meets it no step faults
(10_state.md sections 2 to 8; 20_memory.md R62, R63; 60_exceptions.md R267). -/

namespace Sys2Proof.Machine

/-- The parser's registers after reset are those of a fresh parser over an unwritten `PAY` (R44). -/
theorem parserInv_afterReset (k : Nat) (port : List Input) : ParserInv (State.afterReset k port).parser :=
  parserInv_fresh (s := State.afterReset k port) (Mem.wf_reset k port).1

theorem teleInv_afterReset (k : Nat) (port : List Input) : TeleInv (State.afterReset k port).tele where
  derrKind := .inl rfl
  validNoError := fun _ => rfl
  temps := by simp [State.afterReset, Telemetry.reset]
  record := nofun

theorem txInv_empty : TxInv { txb := [], txlen := 0 } where
  txbWf := rfl
  lenKind := .inl rfl
  written := nofun

/-- The width of `RETRY` follows from its bound (D25). -/
theorem sessInv_of {x : SessRegs} (herr : x.pserr ≠ .noError ↔ x.ps = .failed) (hmax : x.retry ≤ Config.params.maxRetries + 1)
    (hawait : x.ps = .await → x.retry ≤ Config.params.maxRetries) : SessInv x :=
  ⟨herr, hmax, hawait, Nat.lt_of_le_of_lt hmax (lt_two_pow_wRetry _)⟩

/-- No session, and the session that `PSPOLL` starts, have no error and no failed check (R44, R236). -/
theorem sessInv_zero {ps : Ps} (hps : ps ≠ .failed) : SessInv { ps := ps, pserr := .noError, retry := 0 } :=
  sessInv_of (by simp [hps]) (Nat.zero_le _) fun _ => Nat.zero_le _

/-- The state of every reset meets the invariant, whatever the unspecified registers hold (R44, log 5). -/
theorem inv_afterReset (k : Nat) (port : List Input) : (State.afterReset k port).Inv where
  parser := parserInv_afterReset k port
  tele := teleInv_afterReset k port
  flags := nofun
  tx := txInv_empty
  sess := sessInv_zero nofun

/-- Settles O54: the block starts as after reset number 0. -/
theorem resetMeetsInvariant : Obligations.ResetMeetsInvariant := inv_afterReset 0 []

/-- The invariant does not speak of the inputs. -/
theorem State.Inv.withPort {s : State} (h : s.Inv) (port : List Input) : { s with port := port }.Inv :=
  ⟨h.parser, h.tele, h.flags, h.tx, h.sess⟩

theorem inv_refuse {s : State} (h : s.Inv) : (refuse s).Inv := ⟨h.parser, h.tele, h.flags, h.tx, h.sess⟩

/-- An operation of the parser keeps the invariant when it keeps the parser's. -/
theorem State.Inv.of_onlyParser {s t : State} (h : s.Inv) (honly : OnlyParser s t) (hp : ParserInv t.parser) : t.Inv := by
  rw [honly]
  exact ⟨hp, h.tele, h.flags, h.tx, h.sess⟩

/-- Building a command of either length keeps the invariant. -/
theorem inv_sendBytes {s : State} (h : s.Inv) {bs : List Byte} (hl : bs.length = 11 ∨ bs.length = 18) : (sendBytes bs s).Inv :=
  ⟨h.parser, h.tele, h.flags, txInv_sendBytes h.tx hl, h.sess⟩

theorem inv_sendPoll {s : State} (h : s.Inv) : (sendPoll s).Inv := inv_sendBytes h (.inl pollLiteral_length)

/-- Another session that meets its invariant. -/
theorem State.Inv.withSess {s : State} (h : s.Inv) {x : SessRegs} (hx : SessInv x) : { s with sess := x }.Inv :=
  ⟨h.parser, h.tele, h.flags, h.tx, hx⟩

/-- Without `FAILED` there is no session error (R40). -/
theorem SessInv.pserr_eq_noError {x : SessRegs} (h : SessInv x) (hps : x.ps ≠ .failed) : x.pserr = .noError :=
  not_not.1 fun he => hps (h.errIff.1 he)

theorem inv_freshParser {s : State} (h : s.Inv) : (freshParser s).Inv :=
  h.of_onlyParser (onlyParser_freshParser s) (parserInv_fresh h.parser.payWf)

/-- A whole received buffer keeps the parser's invariant. -/
theorem parserInv_validateBuffer {s t : State} {buf : List Byte} (h : ParserInv s.parser) (ht : validateBuffer buf s = .ok t) :
    ParserInv t.parser := by
  obtain ⟨u, hu, hinv⟩ := rxBytes_inv buf (parserInv_fresh h.payWf)
  rw [validateBuffer_of_rxBytes hu, Except.ok.injEq] at ht
  exact ht ▸ parserInv_rxEnd hinv

/-- A `DEC` operation keeps the invariant. -/
theorem inv_decodeRole {s : State} (h : s.Inv) (r : Role) (b : Byte) : (decodeRole Config.params r b s).Inv :=
  ⟨h.parser, h.tele, fun hv => flagsMasked_set (h.flags hv) r b, h.tx, h.sess⟩

/-- A short payload invalidates the record and keeps the rest. -/
theorem inv_raise_tele {s : State} (h : s.Inv) : (raise .tele .truncated s).Inv :=
  ⟨h.parser, teleInv_raise h.tele, nofun, h.tx, h.sess⟩

theorem inv_storeTelemetry {s : State} (h : s.Inv) (w : Window) : (storeTelemetry Config.params w s).Inv :=
  ⟨h.parser, teleInv_store w s, fun _ => flagsMasked_decodeFlags w, h.tx, h.sess⟩

theorem inv_decodeOp {s t : State} (h : s.Inv) (ht : decodeOp Config.params s = .ok t) : t.Inv := by
  obtain ⟨-, rfl⟩ | ⟨-, -, rfl⟩ | ⟨w, -, rfl⟩ := decodeOp_cases ht
  · exact inv_refuse h
  · exact inv_raise_tele h
  · exact inv_storeTelemetry h w

theorem inv_pollStart {s : State} (h : s.Inv) : (pollStart s).Inv := by
  obtain ⟨-, heq⟩ | ⟨-, heq⟩ := pollStart_cases s
  · rw [heq]
    exact inv_refuse h
  · rw [heq]
    exact (inv_sendPoll h).withSess (sessInv_zero nofun)

/-- `PSCHECK` keeps the invariant: the count goes past `MAX_RETRIES` only where the session fails (R238). -/
theorem inv_pollCheck {s : State} (h : s.Inv) (p : Bool) : (pollCheck Config.params p s).Inv := by
  obtain ⟨-, heq⟩ | ⟨hps, -, heq⟩ | ⟨hps, -, -, heq⟩ | ⟨hps, -, hn, heq⟩ := pollCheck_cases Config.params p s
  · rw [heq]
    exact inv_refuse h
  · rw [heq]
    have hcode := h.sess.pserr_eq_noError (by simp [hps])
    exact (inv_freshParser h).withSess (sessInv_of (by simp [hcode]) h.sess.retryMax nofun)
  · rw [heq]
    exact h.withSess (sessInv_of (by simp) (Nat.succ_le_succ (h.sess.awaiting hps)) nofun)
  · rw [heq]
    have hcode := h.sess.pserr_eq_noError (by simp [hps])
    exact h.withSess (sessInv_of (by simp [hcode, hps]) (Nat.le_succ_of_le hn) fun _ => hn)

/-- Ending a session by an error keeps the invariant. -/
theorem inv_raise_poll {s : State} (h : s.Inv) {e : ErrCode} (he : e ≠ .noError) : (raise .poll e s).Inv :=
  h.withSess (sessInv_of (by simp [he]) h.sess.retryMax nofun)

/-- `PSVAL` keeps the invariant: a parser in `ERR` has an error to hand over (R26, R239). -/
theorem inv_pollValidate {s t : State} (h : s.Inv) (ht : pollValidate Config.params s = .ok t) : t.Inv := by
  obtain ⟨-, rfl⟩ | ⟨-, hf, rfl⟩ | ⟨-, -, -, rfl⟩ | ⟨-, w, -, rfl⟩ := pollValidate_cases ht
  · exact inv_refuse h
  · exact inv_raise_poll h (h.parser.errcIff.2 hf)
  · exact inv_raise_poll (inv_raise_tele h) nofun
  · exact (inv_storeTelemetry h w).withSess (sessInv_of (by simp) h.sess.retryMax nofun)

/-- Every instruction keeps the invariant. -/
theorem inv_exec {i : Instr} {s t : State} (h : s.Inv) (ht : exec i s = .next t) : t.Inv := by
  cases i
  case rxbyte => exact h.of_onlyParser (onlyParser_rxByte (finish_next ht)) (parserInv_rxByte h.parser (finish_next ht))
  case wireResp =>
    exact h.of_onlyParser (onlyParser_validateBuffer (finish_next ht)) (parserInv_validateBuffer h.parser (finish_next ht))
  case decode => exact inv_decodeOp h (finish_next ht)
  case psval => exact inv_pollValidate h (finish_next ht)
  all_goals obtain rfl := Host.Outcome.next.inj ht
  case start => exact inv_freshParser h
  case rxend => exact h.of_onlyParser (onlyParser_rxEnd s) (parserInv_rxEnd h.parser)
  case decst1 | decst2 | decwr1 | decwr2 | decft1 | decft2 => exact inv_decodeRole h _ _
  case compose => exact ⟨h.parser, h.tele, h.flags, h.tx, h.sess⟩
  case encpoll | wirePoll => exact inv_sendPoll h
  case encclk | wireSetclk => exact inv_sendBytes h (.inr (setclkBytes_length ..))
  case pspoll => exact inv_pollStart h
  case pscheck p => exact inv_pollCheck h p

/-- Settles O55: a step does nothing, resets the block, runs an instruction or refuses a request. -/
theorem stepKeepsInvariant : Obligations.StepKeepsInvariant := by
  intro s t h ht
  obtain ⟨-, rfl⟩ | ⟨rest, -, rfl⟩ | ⟨r, rest, -, hreq⟩ := step_cases ht
  · exact h
  · exact inv_afterReset _ _
  · obtain ⟨i, hi⟩ | rfl := handleRequest_cases hreq
    · exact inv_exec (h.withPort rest) hi
    · exact inv_refuse (h.withPort rest)

/-- Under the parser's invariant no instruction faults (R62, R63). -/
theorem exec_next_of_inv {s : State} (h : ParserInv s.parser) (i : Instr) : ∃ t, exec i s = .next t := by
  cases i
  case rxbyte b =>
    obtain ⟨t, ht⟩ := rxByte_ok_of_inv h b
    exact ⟨t, by rw [exec, execRxbyte, ht, finish]⟩
  case wireResp buf =>
    obtain ⟨t, ht, -⟩ := wireRespIsValidate buf s
    exact ⟨t, ht⟩
  case decode =>
    obtain ⟨t, ht⟩ := decodeOp_ok_of_inv Config.params h
    exact ⟨t, by rw [exec, execDecode, ht, finish]⟩
  case psval =>
    obtain ⟨t, ht⟩ := pollValidate_ok_of_inv Config.params h
    exact ⟨t, exec_psval_of_ok ht⟩
  case start | rxend | decst1 | decst2 | decwr1 | decwr2 | decft1 | decft2 | compose | encpoll | encclk | pspoll | pscheck |
      wirePoll | wireSetclk => exact ⟨_, rfl⟩

/-- Only outbound bytes are rejected as no outbound unit, and by their own bytes (R90). -/
theorem eq_tx_of_decode_notOutbound {r : Request} {bytes : List Byte} (h : decode r = .error (.notOutbound bytes)) :
    r = .tx bytes := by
  cases r with
  | cmd w =>
    simp only [decode, decodeCmd] at h
    split at h <;> cases h
  | rx buf =>
    simp only [decode, decodeRx] at h
    split_ifs at h
    cases h
  | tx bs =>
    simp only [decode, decodeTx] at h
    split_ifs at h
    split at h
    · cases h
    · rw [Except.error.injEq, Reject.notOutbound.injEq] at h
      rw [h]

/-- Under the parser's invariant a request is answered, or it is outbound bytes of no wire format. -/
theorem handleRequest_of_inv {s : State} (h : ParserInv s.parser) (r : Request) :
    (∃ t, handleRequest r s = .next t) ∨
      (handleRequest r s = .refused .notOutbound ∧
        ∃ bytes, r = .tx bytes ∧ decode (.tx bytes) = .error (.notOutbound bytes)) := by
  rw [handleRequest]
  cases hdec : decode r with
  | ok i => exact .inl (exec_next_of_inv h i)
  | error e =>
    cases e with
    | undefinedOpcode op => exact .inl ⟨_, rfl⟩
    | notMagic buf => exact .inl (exec_next_of_inv h (.wireResp buf))
    | notOutbound bytes =>
      obtain rfl := eq_tx_of_decode_notOutbound hdec
      exact .inr ⟨rfl, bytes, rfl, hdec⟩

/-- Settles O56: no input and the reset event are always answered, and a request by `handleRequest_of_inv`. -/
theorem noStepFaultsUnderInvariant : Obligations.NoStepFaultsUnderInvariant := by
  intro s h
  cases hport : s.port with
  | nil => exact .inl ⟨s, step_of_nil hport⟩
  | cons input rest =>
    cases input with
    | reset => exact .inl ⟨_, step_of_reset hport⟩
    | request r =>
      rw [step_of_request hport]
      obtain hnext | ⟨href, bytes, rfl, hdec⟩ := handleRequest_of_inv (s := { s with port := rest }) h.parser r
      · exact .inl hnext
      · exact .inr ⟨href, bytes, rest, rfl, hdec⟩

/-- Settles O60: `W_RETRY` is one more than the base-2 logarithm of `MAX_RETRIES + 1`. -/
theorem retryWidthIsWhatItNeeds : Obligations.RetryWidthIsWhatItNeeds :=
  ⟨fun P => ⟨Nat.log2_self_le (Nat.succ_ne_zero _), lt_two_pow_wRetry P⟩, fun _ h => h.sess.retryFits⟩

end Sys2Proof.Machine
end

section
/-! Waiting for data, and a whole poll cycle (30_encoding.md R106; 45_poll_session.md R238, R239; 70_reset_and_hazards.md R306). -/

namespace Sys2Proof.Machine

theorem execAll_cons_of_next {i : Instr} {s t : State} (h : exec i s = .next t) (is : List Instr) :
    execAll (i :: is) s = execAll is t := by
  rw [execAll, h]

theorem execAll_append_of_next {a : List Instr} {s t : State} (h : execAll a s = .next t) (b : List Instr) :
    execAll (a ++ b) s = execAll b t := by
  rw [execAll_append, h]

/-- Failed checks that `MAX_RETRIES` allows are counted and change nothing else (R238). -/
theorem execAll_silent {n : Nat} {s : State} (hps : s.sess.ps = .await) (hn : s.sess.retry + n ≤ Config.params.maxRetries) :
    execAll (List.replicate n (.pscheck false)) s = .next { s with sess := { s.sess with retry := s.sess.retry + n } } := by
  induction n generalizing s with
  | zero => rfl
  | succ n ih =>
    have hmax : ¬ Config.params.maxRetries < s.sess.retry + 1 := by omega
    have hstep : exec (.pscheck false) s = .next { s with sess := { s.sess with retry := s.sess.retry + 1 } } := by
      rw [exec, execPscheck, pollCheck_false_of_await hps, if_neg hmax]
    have hrest := ih (s := { s with sess := { s.sess with retry := s.sess.retry + 1 } }) hps (by dsimp only; omega)
    rw [List.replicate_succ, execAll_cons_of_next hstep, hrest]
    simp only [Nat.add_assoc, Nat.add_comm 1 n]

/-- Settles O48: the checks that `MAX_RETRIES` still allows, and the one that exceeds it. -/
theorem waitingIsBounded : Obligations.WaitingIsBounded := by
  intro s hps hretry
  have hrun := execAll_silent (n := Config.params.maxRetries - s.sess.retry) hps (by omega)
  have hsplit : Config.params.maxRetries + 1 - s.sess.retry = Config.params.maxRetries - s.sess.retry + 1 := by omega
  have hcount : s.sess.retry + (Config.params.maxRetries - s.sess.retry) = Config.params.maxRetries := by omega
  rw [hcount] at hrun
  rw [hsplit, List.replicate_succ', execAll_append_of_next hrun]
  have hlast := pollCheck_false_of_await (s := { s with sess := { s.sess with retry := Config.params.maxRetries } }) hps
    Config.params
  rw [if_pos (Nat.lt_succ_self _)] at hlast
  simp only [execAll, exec, execPscheck, hlast]

/-- A payload of at least 56 bytes that the parser holds is decodable (R185). -/
theorem HoldsPayload.decodable {s : State} {p : List Byte} (h : HoldsPayload s.parser p) (hp : minPayload ≤ p.length) :
    ∃ w, Decodable s w := by
  obtain ⟨hf, -, hlen, hread⟩ := h
  have hlt : ∀ a : Fin 56, a.val < p.length := fun a => Nat.lt_of_lt_of_le a.isLt hp
  exact ⟨fun a => p[a.val]'(hlt a), hf, hlen ▸ hp, fun a => by rw [hread a.val (hlt a), List.getElem?_eq_getElem (hlt a)]⟩

/-- How a session whose parser was to judge `buf` ends: by the error of `Validate`, the telemetry `old` kept, by a payload that is
too short, or with a valid record (R239). -/
def SessionEnd (buf : List Byte) (old : TeleRegs) (t : State) : Prop :=
  match validate buf with
  | .error e => t.sess.ps = .failed ∧ t.sess.pserr = e ∧ t.tele = old
  | .ok p =>
    if p.length < 56 then
      t.sess.ps = .failed ∧ t.sess.pserr = .truncated ∧ t.tele.derr = .truncated ∧ t.tele.tvalid = false
    else t.sess.ps = .done ∧ t.sess.pserr = .noError ∧ t.tele.derr = .noError ∧ t.tele.tvalid = true

/-- `PSVAL` after a verdict on `buf` ends the session by it, and keeps the count and `CMDERR` (R239). -/
theorem exec_psval_of_holdsVerdict {s : State} {buf : List Byte} (hps : s.sess.ps = .validating)
    (hv : HoldsVerdict s.parser buf) :
    ∃ t, exec .psval s = .next t ∧ t.cmderr = s.cmderr ∧ t.sess.retry = s.sess.retry ∧ SessionEnd buf s.tele t := by
  obtain ⟨-, herr, hshort, hdone⟩ := psvalJudgesTheFrame s
  simp only [HoldsVerdict] at hv
  simp only [SessionEnd]
  cases hval : validate buf with
  | error e =>
    rw [hval] at hv
    obtain ⟨hf, he⟩ := hv
    exact ⟨_, herr hps hf, rfl, rfl, rfl, he, rfl⟩
  | ok p =>
    rw [hval] at hv
    obtain ⟨hp, -⟩ := hv
    have ⟨hf, _, hlen, _⟩ := hp
    by_cases h56 : p.length < 56
    · refine ⟨_, hshort hps hf (hlen ▸ h56), rfl, rfl, ?_⟩
      simp only [if_pos h56, and_self]
    · obtain ⟨w, hw⟩ := HoldsPayload.decodable (s := s) hp (Nat.not_lt.1 h56)
      obtain ⟨u, hu, ht⟩ := hdone w hps hw
      rw [exec_decode_of_decodable hw, Host.Outcome.next.injEq] at hu
      subst hu
      refine ⟨_, ht, rfl, rfl, ?_⟩
      simp only [if_neg h56, storeTelemetry_tele, and_self]

/-- Data that arrive while a session waits are validated from a fresh parser, and the session ends by the result (R106, R238,
R239). -/
theorem execAll_pollDataOps (buf : List Byte) {s : State} (hps : s.sess.ps = .await) :
    ∃ t, execAll (pollDataOps buf) s = .next t ∧ t.cmderr = s.cmderr ∧ t.sess.retry = s.sess.retry ∧
      SessionEnd buf s.tele t := by
  obtain ⟨u, hu, hverdict⟩ := rxBytes_fresh_holdsVerdict buf { s with sess := { s.sess with ps := .validating } }
  have honly := ((onlyParser_freshParser _).trans (onlyParser_rxBytes hu)).trans (onlyParser_rxEnd u)
  obtain ⟨hcmd, -, -, htele, -, hsess, -⟩ := honly.frame
  obtain ⟨t, ht, htcmd, htretry, hend⟩ := exec_psval_of_holdsVerdict (s := rxEnd u) (by rw [hsess]) hverdict
  have hcheck : exec (.pscheck true) s = .next (freshParser { s with sess := { s.sess with ps := .validating } }) := by
    rw [exec, execPscheck, pollCheck_true_of_await hps]
    rfl
  refine ⟨t, ?_, htcmd.trans hcmd, by rw [htretry, hsess], htele ▸ hend⟩
  have hrxend : exec .rxend u = .next (rxEnd u) := rfl
  rw [pollDataOps, execAll_cons_of_next hcheck, execAll_append_of_next (execAll_rxbyte hu), execAll_cons_of_next hrxend,
    execAll_cons_of_next ht, execAll]

/-- Settles O49: `PSPOLL` starts the session; with too many silent checks it times out, and otherwise the data end it. -/
theorem pollCycleEndsByValidate : Obligations.PollCycleEndsByValidate := by
  intro s silent buf hidle
  obtain ⟨u, hu, hframe, -⟩ := (pspollStartsASession s).2 hidle
  have hps : u.sess.ps = .await := by rw [hframe]
  have hretry : u.sess.retry = 0 := by rw [hframe]
  rw [pollCycleOps, execAll_cons_of_next hu]
  by_cases hmax : Config.params.maxRetries < silent
  · have hwait := waitingIsBounded u hps (by omega)
    rw [hretry, Nat.sub_zero] at hwait
    rw [if_pos hmax, hwait]
    refine ⟨_, rfl, ?_⟩
    rw [if_pos hmax, hframe]
    exact ⟨rfl, rfl, rfl, rfl⟩
  · rw [if_neg hmax, execAll_append_of_next (execAll_silent hps (by omega))]
    obtain ⟨t, ht, hcmd, htretry, hend⟩ :=
      execAll_pollDataOps buf (s := { u with sess := { u.sess with retry := u.sess.retry + silent } }) hps
    refine ⟨t, ht, hcmd.trans (by rw [hframe]), ?_⟩
    rw [if_neg hmax]
    refine ⟨by rw [htretry, hretry, Nat.zero_add], ?_⟩
    have htele : u.tele = s.tele := by rw [hframe]
    rw [← htele]
    exact hend

end Sys2Proof.Machine
end
